-- ==== Sys2Proof/Word.lean ====
section
/-! DEFINITION. The units of data of the block: the byte and the byte string (spec 00_scope.md R9).
Every value of this hardware is one unsigned byte or a string of them (20_memory.md R56); everything else
(coordinates, indices, sizes) is an unbounded natural number, as R9 says. -/

namespace Sys2Proof

/-- `u8`: the integers 0..255, bit 0 the least significant (R9). -/
abbrev Byte := BitVec 8

/-- A byte string of known length: a command frame on CMD (R80) or a response frame on RSP (R95). -/
abbrev Frame := List Byte

end Sys2Proof
end

