-- ==== Sys2Proof/Config.lean ====
section
/-! DEFINITION. The configuration of the block: the implementation parameters of 00_scope.md R7 and the
register-page mapping table of R8. It is an ARGUMENT of the model: fixed before reset, constant while the block runs
(10_state.md R29). Claims are stated for every configuration. -/

namespace Sys2Proof

/-- The parameters of R7, as plain data. A value of this type is a configuration somebody proposes; `Params.wf` says
whether the block accepts it. -/
structure Params where
  /-- WIDTH, columns of the grid (reference value 9). -/
  width : Nat
  /-- HEIGHT, rows of the grid (reference value 34). -/
  height : Nat
  /-- NUM_PAGES, register pages of the controller (reference value 2). -/
  numPages : Nat
  /-- PAGE_SIZE, stride of a page in the flat buffer (OPEN). -/
  pageSize : Nat
  /-- BUF_LEN, length of the flat buffer (OPEN). -/
  bufLen : Nat
  /-- MAP (OPEN, R8) as a table: entry `x + WIDTH * y` is the pair (register, page) of cell (x, y). -/
  map : List (Nat × Nat)
  /-- BRIGHT_RESET, the brightness after reset (OPEN, 70_reset_and_hazards.md R261). -/
  brightReset : Byte
  /-- FULL_ON_VALUE, the value FULLON sends (reference value 0xFF, 42_compositor.md R174). -/
  fullOnValue : Byte
deriving DecidableEq, Repr

/-- CELLS = WIDTH * HEIGHT (R7). -/
def Params.cells (p : Params) : Nat := p.width * p.height

/-- PK_LEN = ceil(CELLS / 8), the bytes of a bit-packed frame (R7, R9). -/
def Params.pkLen (p : Params) : Nat := (p.cells + 8 - 1) / 8

/-- GLYPH_N = 8: the glyph side, "fixed 8x8", not a parameter (R7). -/
def glyphN : Nat := 8

/-- The configurations the block runs under: the ranges of R7, a MAP total over the grid (one table entry a cell) that
stays in the register space and the flat buffer (R8 (a)), and is injective (R8 (b)). Any other is refused. -/
abbrev Params.wf (p : Params) : Prop :=
  (8 ≤ p.width ∧ p.width ≤ 256) ∧ (8 ≤ p.height ∧ p.height ≤ 256) ∧
  1 ≤ p.numPages ∧ 1 ≤ p.pageSize ∧ 1 ≤ p.bufLen ∧
  p.map.length = p.width * p.height ∧
  (∀ e ∈ p.map, e.2 < p.numPages ∧ e.1 < p.pageSize ∧ e.2 * p.pageSize + e.1 < p.bufLen) ∧
  p.map.Nodup

/-- A configuration the block has accepted. "The configuration is refused before the block runs. There is no run-time
check for it" (60_exceptions.md R231): the check is made once, when the value is built, and nothing looks at it again. -/
structure Config extends Params where
  /-- The check of R7 and R8 held when the configuration was fixed. -/
  ok : toParams.wf
deriving DecidableEq, Repr

/-- TESTCFG of 95_test_vectors.md: WIDTH, HEIGHT and NUM_PAGES at their reference values; PAGE_SIZE, BUF_LEN, MAP and
BRIGHT_RESET are OPEN in the source and hold that file's test choices. -/
def Params.testcfg : Params where
  width := 9
  height := 34
  numPages := 2
  pageSize := 160
  bufLen := 320
  map := (List.range 306).map fun l => (l % 153, l / 153)
  brightReset := 0xFF
  fullOnValue := 0xFF

/-- TESTCFG is well-formed, as its table says ("in range and injective"). -/
theorem Params.testcfg_wf : Params.testcfg.wf := by
  refine ⟨by decide, by decide, by decide, by decide, by decide, by simp [Params.testcfg], ?_, ?_⟩
  · intro e he
    obtain ⟨l, hl, rfl⟩ := List.mem_map.1 he
    have := List.mem_range.1 hl
    simp only [Params.testcfg]
    omega
  · refine List.Nodup.map ?_ List.nodup_range
    intro a b h
    simp only [Prod.mk.injEq] at h
    omega

/-- DESIGN CHOICE (log 1): the one configuration behind `State.reset`. The only complete configuration the spec writes
down is TESTCFG. -/
def Config.testcfg : Config := { Params.testcfg with ok := Params.testcfg_wf }

end Sys2Proof
end

