-- ==== Sys2Proof/Syntax.lean ====
section
/-! DEFINITION. The commands of LMFB command set edition 1 (30_encoding.md R83): one constructor for each row of
spec/opcode_table.json. Operands are the immediate bytes of R81, in the order of the format. No command names a
register (10_state.md R30). -/

namespace Sys2Proof

/-- A command. Byte arrays stand in ascending offset order (R82). -/
inductive Instr where
  /-- 0x01 CLEAR (R110). -/
  | clear
  /-- 0x02 WRCELL x, y, v (R112). -/
  | wrcell (x y v : Byte)
  /-- 0x03 RDCELL x, y (R114). -/
  | rdcell (x y : Byte)
  /-- 0x04 LOADGRID c, CELLS bytes (R116). -/
  | loadgrid (c : List Byte)
  /-- 0x05 LOADPK pk, PK_LEN bytes (R118). -/
  | loadpk (pk : List Byte)
  /-- 0x08 GLYPH off, g, with g of 8 bytes (R140). -/
  | glyph (off : Byte) (g : List Byte)
  /-- 0x10 SETGRID (R178). -/
  | setgrid
  /-- 0x11 SETBRT b (R180). -/
  | setbrt (b : Byte)
  /-- 0x12 PUSH (R170). -/
  | push
  /-- 0x13 PUSHSLOW (R172). -/
  | pushslow
  /-- 0x14 FULLON (R174). -/
  | fullon
  /-- 0x15 RDBRT (R182). -/
  | rdbrt
deriving DecidableEq, Repr

end Sys2Proof
end

