-- ==== Sys2Proof/WellFormed.lean ====
section
/-! DEFINITION. Which commands have an encoding: the array operands have the lengths R81 fixes (30_encoding.md).
A coordinate or an offset outside its range is NOT ill-formed: "A value outside that range is a fault, not a reserved
encoding" (R82). -/

namespace Sys2Proof

/-- `i` can be written as a frame of its format's length under configuration `p` (R81; an assembler "refuses an array of
the wrong length", R100). -/
def Instr.wf (p : Params) : Instr → Bool
  | .clear => true
  | .wrcell _ _ _ => true
  | .rdcell _ _ => true
  | .loadgrid c => c.length == p.cells
  | .loadpk pk => pk.length == p.pkLen
  | .glyph _ g => g.length == glyphN
  | .setgrid => true
  | .setbrt _ => true
  | .push => true
  | .pushslow => true
  | .fullon => true
  | .rdbrt => true

end Sys2Proof
end

