-- ==== Sys2Proof/Decode.lean ====
section
/-! DEFINITION. Command frames and what they stand for (30_encoding.md): the opcode map of R83, the formats of R81, the
decoder of R85, total on every byte string and naming the fault of a frame it rejects, and the encoder. -/

namespace Sys2Proof

/-- The contract violations the block detects (60_exceptions.md R221). -/
inductive Cause where
  /-- LENGTH: the frame is empty, or its length is not its opcode's. -/
  | length
  /-- ILLEGAL_OPCODE: the first byte is a reserved opcode. -/
  | illegalOpcode
  /-- CELL_RANGE: x >= WIDTH or y >= HEIGHT, of WRCELL and RDCELL. -/
  | cellRange
  /-- GLYPH_RANGE: off + 8 > HEIGHT, of GLYPH. -/
  | glyphRange
deriving DecidableEq, Repr

/-- Why the decoder rejects a frame: the fault it raises and the opcode it records (R85). -/
structure Reject where
  cause : Cause
  opcode : Byte
deriving DecidableEq, Repr

/-- The twelve defined opcodes (R83). -/
inductive Opcode where
  | clear | wrcell | rdcell | loadgrid | loadpk | glyph | setgrid | setbrt | push | pushslow | fullon | rdbrt
deriving DecidableEq, Repr

/-- The command formats of R81. -/
inductive Format where
  | n | b | xy | xyv | g | p | l
deriving DecidableEq, Repr

/-- The opcode column of R83. -/
def Opcode.byte : Opcode → Byte
  | .clear => 0x01
  | .wrcell => 0x02
  | .rdcell => 0x03
  | .loadgrid => 0x04
  | .loadpk => 0x05
  | .glyph => 0x08
  | .setgrid => 0x10
  | .setbrt => 0x11
  | .push => 0x12
  | .pushslow => 0x13
  | .fullon => 0x14
  | .rdbrt => 0x15

/-- The format column of R83. -/
def Opcode.format : Opcode → Format
  | .clear => .n
  | .wrcell => .xyv
  | .rdcell => .xy
  | .loadgrid => .l
  | .loadpk => .p
  | .glyph => .g
  | .setgrid => .n
  | .setbrt => .b
  | .push => .n
  | .pushslow => .n
  | .fullon => .n
  | .rdbrt => .n

/-- The length column of R81: the bytes of a frame, opcode included. -/
def Format.length (p : Params) : Format → Nat
  | .n => 1
  | .b => 2
  | .xy => 3
  | .xyv => 4
  | .g => 10
  | .p => 1 + p.pkLen
  | .l => 1 + p.cells

/-- LENGTH(op) of R85: "the opcode alone fixes the frame length" (R80). -/
def Opcode.length (p : Params) (o : Opcode) : Nat := o.format.length p

/-- Every defined opcode, in the order of R83. -/
def Opcode.all : List Opcode :=
  [.clear, .wrcell, .rdcell, .loadgrid, .loadpk, .glyph, .setgrid, .setbrt, .push, .pushslow, .fullon, .rdbrt]

/-- The defined opcode a byte is, if it is one. Every other byte value is reserved (R84). -/
def Opcode.ofByte (b : Byte) : Option Opcode := Opcode.all.find? fun o => o.byte == b

/-- The operands of an opcode's format, read at their fixed offsets after the opcode (R81, R82). Only a byte string of
the format's length is one (`decode` checks that first). -/
def readOperands : Opcode → List Byte → Option Instr
  | .clear, [] => some .clear
  | .wrcell, [x, y, v] => some (.wrcell x y v)
  | .rdcell, [x, y] => some (.rdcell x y)
  | .loadgrid, c => some (.loadgrid c)
  | .loadpk, pk => some (.loadpk pk)
  | .glyph, off :: g => some (.glyph off g)
  | .setgrid, [] => some .setgrid
  | .setbrt, [b] => some (.setbrt b)
  | .push, [] => some .push
  | .pushslow, [] => some .pushslow
  | .fullon, [] => some .fullon
  | .rdbrt, [] => some .rdbrt
  | _, _ => none

/-- Decode (R85): the empty frame, then a reserved opcode, then the length; the first check that fails decides the fault.
Operand range checks are the command's own. -/
def decode (p : Params) : Frame → Except Reject Instr
  | [] => .error ⟨.length, 0x00⟩
  | op :: operands =>
    match Opcode.ofByte op with
    | none => .error ⟨.illegalOpcode, op⟩
    | some o =>
      if operands.length + 1 = o.length p then
        match readOperands o operands with
        | some i => .ok i
        | none => .error ⟨.length, op⟩
      else .error ⟨.length, op⟩

/-! ## The encoder, from the same tables -/

/-- The opcode of a command. -/
def Instr.opcode : Instr → Opcode
  | .clear => .clear
  | .wrcell _ _ _ => .wrcell
  | .rdcell _ _ => .rdcell
  | .loadgrid _ => .loadgrid
  | .loadpk _ => .loadpk
  | .glyph _ _ => .glyph
  | .setgrid => .setgrid
  | .setbrt _ => .setbrt
  | .push => .push
  | .pushslow => .pushslow
  | .fullon => .fullon
  | .rdbrt => .rdbrt

/-- The operand bytes of a command, in the order of its format (R81). -/
def Instr.operands : Instr → List Byte
  | .clear => []
  | .wrcell x y v => [x, y, v]
  | .rdcell x y => [x, y]
  | .loadgrid c => c
  | .loadpk pk => pk
  | .glyph off g => off :: g
  | .setgrid => []
  | .setbrt b => [b]
  | .push => []
  | .pushslow => []
  | .fullon => []
  | .rdbrt => []

/-- The frame of a command (R80, R102: "every mnemonic assembles to exactly one frame"). -/
def encode (i : Instr) : Frame := i.opcode.byte :: i.operands

/-! ## Frames from the opcode table's numbering -/

/-- The frame that `nbits` bits `w` of a table row stand for: byte k is bits 8k+7..8k, as many bytes as `nbits` holds or
as the opcode's length asks for, whichever is more; bits above `nbits` are 0. -/
def tableFrame (p : Params) (nbits w : Nat) : Frame :=
  let bits := w % 2 ^ nbits
  let len :=
    match Opcode.ofByte (BitVec.ofNat 8 bits) with
    | some o => max (nbits / 8) (o.length p)
    | none => nbits / 8
  (List.range len).map fun k => BitVec.ofNat 8 (bits >>> (8 * k))

/-- The instruction the decoder reads from a table row's word, under the configuration of `State.reset`. -/
def decodeTableWord (nbits w : Nat) : Option Instr :=
  match decode Config.testcfg.toParams (tableFrame Config.testcfg.toParams nbits w) with
  | .ok i => some i
  | .error _ => none

end Sys2Proof
end

