-- ==== Sys2Proof/Machine/State.lean ====
section
/-! DEFINITION. The state of the machine (10_state.md): the six elements of R20, the ports of R35 and what they hold, and
the moves of HOST and TRANSPORT still to come. Plain data throughout. -/

namespace Sys2Proof.Machine

/-- A cell space or byte buffer: the bytes that are not 0, by rising address. An address that is not listed reads as
0x00: the reset contents of a grid cell (70_reset_and_hazards.md R261) and of a fresh flat buffer byte (42_compositor.md
R162). The canonical form is `Memory.wf` (Machine/Ops.lean). -/
abbrev Memory := List Host.Cell

/-- CTL, the batched-write controller's sequencing state (R27). In a WAIT state the request named is outstanding, or is held
back while a request abandoned by RESET is unanswered (log 4). -/
inductive Ctl where
  /-- IDLE: no command in progress. -/
  | idle
  /-- WAIT_FRAME: a WRITE_FULL_FRAME request is outstanding. -/
  | waitFrame
  /-- WAIT_FILL: a FILL_ALL request is outstanding. -/
  | waitFill
  /-- WAIT_PIXEL(k): the WRITE_SINGLE_PIXEL request of pixel number k of PUSHSLOW is outstanding. -/
  | waitPixel (k : Nat)
  /-- FAULTED: a contract violation occurred. -/
  | faulted
deriving DecidableEq, Repr

/-- The TRANSPORT's answer to a request (R42). -/
inductive Answer where
  | ok
  /-- `Err(e)`: e is one opaque byte, never interpreted. -/
  | err (e : Byte)
deriving DecidableEq, Repr

/-- A transport request with its payload (R41). -/
inductive Request where
  /-- WRITE_FULL_FRAME(buf): BUF_LEN bytes in index order. -/
  | writeFullFrame (buf : List Byte)
  /-- WRITE_SINGLE_PIXEL(x, y, v). -/
  | writeSinglePixel (x y v : Byte)
  /-- FILL_ALL(v). -/
  | fillAll (v : Byte)
deriving DecidableEq, Repr

/-- What the block emits, an observable event of 00_scope.md R6: a response frame on RSP or a request on TRQ. -/
inductive Event where
  | response (bytes : Frame)
  | request (r : Request)
deriving DecidableEq, Repr

/-- One move of the block's surroundings (R35). -/
inductive Input where
  /-- HOST offers a command frame on CMD (R36). -/
  | frame (f : Frame)
  /-- TRANSPORT answers a request on TRQ (R42). -/
  | answer (a : Answer)
  /-- HOST asserts RESET, or power returns (R40, 60_exceptions.md R242). -/
  | reset
  /-- Neither HOST nor TRANSPORT does anything. -/
  | quiet
deriving DecidableEq, Repr

/-- What stops the machine for good. The block's own faults are not here: they are the state FAULTED, entered by
`State.raiseFault` (60_exceptions.md R222). -/
inductive Fault where
  /-- Raised by `step` when TRANSPORT answers although no request is unanswered, which R42 excludes ("Every transport request
  gets exactly one answer"). Safe: the machine stops where the spec gives no behaviour. -/
  | answerWithoutRequest
deriving DecidableEq, Repr

/-- What the model has no meaning for. -/
inductive Refusal where
  /-- Raised by an arm of `exec` whose command has no meaning yet. Safe. No arm raises it. -/
  | notModelled (mnemonic : String)
  /-- Raised by `boot` for a configuration that fails R7 or R8 of 00_scope.md ("No command runs under it"). Safe. -/
  | configuration
deriving DecidableEq, Repr

/-- The whole machine. -/
structure State where
  /-- The model's own field: the configuration the block was built with (R29). No step changes it. -/
  cfg : Config
  /-- WORK, the working grid, by linear cell index x + WIDTH * y (R21, 20_memory.md R51). -/
  work : Memory
  /-- COMMIT, the committed grid (R22), by the same index. -/
  commit : Memory
  /-- BRIGHT, the global brightness scalar (R24). -/
  bright : Byte
  /-- FSR: CAUSE in bits 7:0, OPCODE in bits 15:8 (R25). -/
  fsr : BitVec 16
  /-- CTL (R27). -/
  ctl : Ctl
  /-- FB, the flat buffer, by byte index. It exists only during a push (R28): `none` is "does not exist". -/
  fb : Option Memory
  /-- The frames held on CMD, oldest first (R36). -/
  cmd : List Frame
  /-- A request that a RESET abandoned is still unanswered. It is "marked" so that its answer is discarded when it comes
  (R40, 70_reset_and_hazards.md R260). There is at most one, because no request is issued before it is answered (R43,
  20_memory.md R65). -/
  abandoned : Bool
  /-- The model's own field: everything the block has emitted, oldest first (R6). -/
  events : List Event
  /-- The model's own field: the moves of HOST and TRANSPORT still to come, in their order. Any list: the answers in it
  are the free draws of R42. -/
  inputs : List Input
deriving DecidableEq, Repr

/-- The block right after reset under configuration `cfg` (R261): both grids all 0, BRIGHT = BRIGHT_RESET, FSR = 0x0000,
CTL = IDLE, no FB, no held frame, nothing emitted, nothing to come. -/
def State.resetOf (cfg : Config) : State where
  cfg := cfg
  work := []
  commit := []
  bright := cfg.brightReset
  fsr := 0x0000
  ctl := .idle
  fb := none
  cmd := []
  abandoned := false
  events := []
  inputs := []

/-- The block right after reset, under TESTCFG (log 1). Claims are about `State.resetOf cfg` for every `cfg`. -/
def State.reset : State := State.resetOf Config.testcfg

end Sys2Proof.Machine
end

