-- ==== Sys2Proof/Machine/Flags.lean ====
section
/-! DEFINITION. The status the block shows. It has no flags or condition codes (10_state.md R31): what there is instead is
the status byte of a response (30_encoding.md R95), the fault status register FSR (R25), the FAULT level (R26) and
READY (R36). -/

namespace Sys2Proof.Machine

/-- The OK response: status 0x00 and the command's read data (R95). -/
def okResponse (data : List Byte) : Frame := 0x00 :: data

/-- The response to a finished transport command: [0x00], or [0x01, e] with e unchanged (R95, R96). -/
def answerResponse : Answer → Frame
  | .ok => okResponse []
  | .err e => [0x01, e]

/-- The CAUSE codes of 60_exceptions.md R221. -/
def causeCode : Cause → Byte
  | .length => 0x01
  | .illegalOpcode => 0x02
  | .cellRange => 0x03
  | .glyphRange => 0x04

/-- FSR with OPCODE in bits 15:8 and CAUSE in bits 7:0 (R25). -/
def fsrWord (cause opcode : Byte) : BitVec 16 := opcode ++ cause

/-- FSR.CAUSE, bits 7:0. -/
def fsrCause (fsr : BitVec 16) : Byte := fsr.extractLsb' 0 8

/-- FSR.OPCODE, bits 15:8. -/
def fsrOpcode (fsr : BitVec 16) : Byte := fsr.extractLsb' 8 8

/-- The FAULT output: FSR.CAUSE is not 0x00 (R26). -/
def State.faultLevel (s : State) : Bool := fsrCause s.fsr != 0x00

/-- READY: asserted exactly when CTL = IDLE (R36). -/
def State.ready (s : State) : Bool := s.ctl == .idle

/-- What the HOST reads on SIDE, in any CTL state and without side effect: FSR and the FAULT level (R39). -/
def State.side (s : State) : BitVec 16 × Bool := (s.fsr, s.faultLevel)

end Sys2Proof.Machine
end

