-- ==== Sys2Proof/Machine/Operands.lean ====
section
/-! DEFINITION. How the bytes of a frame name cells, bits and levels, and how a cell names a register: the address spaces
of 20_memory.md, the mirror of 00_scope.md R11, the mapper and the multiply of 42_compositor.md. Arithmetic is on
unbounded naturals (R9). -/

namespace Sys2Proof.Machine

/-- L(x, y) = x + WIDTH * y (20_memory.md R51). -/
def cellIndex (p : Params) (x y : Nat) : Nat := x + p.width * y

/-- mirror_n(v) = n - 1 - v (00_scope.md R11). -/
def mirror (n v : Nat) : Nat := n - 1 - v

/-- Whether (x, y) names a cell: x < WIDTH and y < HEIGHT (20_memory.md R50). -/
def inGrid (p : Params) (x y : Byte) : Bool := decide (x.toNat < p.width) && decide (y.toNat < p.height)

/-- Whether a glyph at row offset `off` fits: off + 8 <= HEIGHT, the sum not reduced (41_glyph.md R140). -/
def glyphFits (p : Params) (off : Byte) : Bool := decide (off.toNat + glyphN ≤ p.height)

/-- The level of a monochrome bit: 255 if set, else 0 (40_framebuffer.md R118, 41_glyph.md R140). -/
def level (bit : Bool) : Byte := if bit then 255 else 0

/-- Bit i of a bit-packed frame: `pk[i div 8][i mod 8]`, LSB first (20_memory.md R52). -/
def packedBit (pk : List Byte) (i : Nat) : Bool := (pk.getD (i / 8) 0).getLsbD (i % 8)

/-- The glyph pixel at glyph-local (gx, gy): `g[gx][gy]` (20_memory.md R53). -/
def glyphBit (g : List Byte) (gx gy : Nat) : Bool := (g.getD gx 0).getLsbD gy

/-- Every cell, x outer and y inner: the loops of CLEAR, SETGRID and compose(). -/
def gridByColumns (p : Params) : List (Nat × Nat) :=
  (List.range p.width).flatMap fun x => (List.range p.height).map fun y => (x, y)

/-- Every cell, y outer and x inner: the loops of LOADPK (R118). -/
def gridByRows (p : Params) : List (Nat × Nat) :=
  (List.range p.height).flatMap fun y => (List.range p.width).map fun x => (x, y)

/-- Pixel number k of PUSHSLOW: x = k div HEIGHT, y = k mod HEIGHT (42_compositor.md R172). -/
def pixelOf (p : Params) (k : Nat) : Nat × Nat := (k / p.height, k % p.height)

/-- MAP(x, y), the (register, page) of a cell (00_scope.md R8). -/
def mapCell (p : Params) (x y : Nat) : Nat × Nat := p.map.getD (cellIndex p x y) (0, 0)

/-- flat(x, y) = page * PAGE_SIZE + register (42_compositor.md R161). -/
def flat (p : Params) (x y : Nat) : Nat := (mapCell p x y).2 * p.pageSize + (mapCell p x y).1

/-- The brightness multiply: (g * b) div 255, the product taken without wrap (42_compositor.md R160). -/
def scale (g b : Byte) : Byte := BitVec.ofNat 8 (g.toNat * b.toNat / 255)

end Sys2Proof.Machine
end

