-- ==== Sys2Proof/Machine/Ops.lean ====
section
/-! DEFINITION. The operations the commands share, in the spec's own primitives (00_scope.md R10): reading and writing
cells and buffer bytes, `respond`, `request`, fault entry and its only way back (RESET), composition, and waiting for
the TRANSPORT's answers. -/

namespace Sys2Proof.Machine

/-! ## Cells and bytes -/

/-- The byte at an address. -/
def Memory.read : Memory → Nat → Byte
  | [], _ => 0
  | (b, w) :: m, a => if a = b then w else Memory.read m a

/-- Write one byte, keeping the canonical form: a 0 is not listed. -/
def Memory.write : Memory → Nat → Byte → Memory
  | [], a, v => if v = 0 then [] else [(a, v)]
  | (b, w) :: m, a, v =>
    if a < b then (if v = 0 then (b, w) :: m else (a, v) :: (b, w) :: m)
    else if a = b then (if v = 0 then m else (a, v) :: m)
    else (b, w) :: Memory.write m a v

/-- Write several bytes, in the order of the list. -/
def Memory.writeAll (m : Memory) (writes : List (Nat × Byte)) : Memory :=
  writes.foldl (fun m c => m.write c.1 c.2) m

/-- The canonical form: addresses strictly rising, no listed byte equal to what an unlisted address reads as. -/
abbrev Memory.wf (m : Memory) : Prop := m.Pairwise (fun c d => c.1 < d.1) ∧ ∀ c ∈ m, c.2 ≠ 0

/-- Every listed address is below `n`: the space has the addresses 0..n-1 (20_memory.md R50). -/
abbrev Memory.within (n : Nat) (m : Memory) : Prop := ∀ c ∈ m, c.1 < n

/-- WORK[x][y] (R10). -/
def State.readWork (s : State) (x y : Nat) : Byte := s.work.read (cellIndex s.cfg.toParams x y)

/-- COMMIT[x][y] (R10). -/
def State.readCommit (s : State) (x y : Nat) : Byte := s.commit.read (cellIndex s.cfg.toParams x y)

/-- Write cells of WORK, each named by its linear index, in the order of the list. -/
def State.writeWork (s : State) (writes : List (Nat × Byte)) : State := { s with work := s.work.writeAll writes }

/-- Write cells of COMMIT. -/
def State.writeCommit (s : State) (writes : List (Nat × Byte)) : State := { s with commit := s.commit.writeAll writes }

/-! ## What the block emits -/

/-- `respond(bytes)`: emit one response frame to the HOST (R10, R37). -/
def State.respond (s : State) (bytes : Frame) : State := { s with events := s.events ++ [.response bytes] }

/-- `request T.op(args)`: CTL says what is waited for, and the request goes out (R10, R43). The block "issues a request only
after the previous request's answer has arrived" (20_memory.md R65): while an abandoned request is unanswered, the
command waits with its request not yet issued, and `State.release` issues it. That it waits so, in its WAIT state, is
log 4. -/
def State.issue (s : State) (ctl : Ctl) (r : Request) : State :=
  { s with ctl := ctl, events := if s.abandoned then s.events else s.events ++ [.request r] }

/-! ## Faults and reset -/

/-- `raise Fault(cause, opcode)` (60_exceptions.md R222): FSR records both, CTL becomes FAULTED, no response, nothing
else changes. -/
def State.raiseFault (s : State) (cause : Cause) (opcode : Byte) : State :=
  { s with fsr := fsrWord (causeCode cause) opcode, ctl := .faulted }

/-- The command in progress waits for the TRANSPORT: CTL is one of the three WAIT states (R27). -/
def State.awaiting (s : State) : Bool :=
  match s.ctl with
  | .idle => false
  | .waitFrame => true
  | .waitFill => true
  | .waitPixel _ => true
  | .faulted => false

/-- RESET, the only way out of FAULTED (R227) and the only thing that abandons a command (70_reset_and_hazards.md R260):
every state element takes its reset value, held frames are discarded, and a request that is outstanding is marked, so that
its answer will be discarded. Nothing is emitted (R40, R262). What was emitted and what is still to come stand. -/
def State.assertReset (s : State) : State :=
  { State.resetOf s.cfg with
    abandoned := s.abandoned || s.awaiting
    events := s.events
    inputs := s.inputs }

/-- Power-up: the configuration is checked, once, before the block runs (R264, 00_scope.md R8). -/
def boot (p : Params) : Host.Outcome State Fault Refusal :=
  if h : p.wf then .next (State.resetOf { p with ok := h }) else .refused .configuration

/-! ## Composition (42_compositor.md) -/

/-- The writes of compose(): every cell's scaled value at its flat index (R162). -/
def composeWrites (p : Params) (commit : Memory) (bright : Byte) : List (Nat × Byte) :=
  (gridByColumns p).map fun c => (flat p c.1 c.2, scale (commit.read (cellIndex p c.1 c.2)) bright)

/-- compose(): FB all 0x00, then every cell's write (R162). -/
def composeFrame (p : Params) (commit : Memory) (bright : Byte) : Memory :=
  Memory.writeAll [] (composeWrites p commit bright)

/-- The WRITE_FULL_FRAME payload: FB in index order 0..BUF_LEN-1 (10_state.md R41). -/
def framePayload (p : Params) (fb : Memory) : List Byte := (List.range p.bufLen).map fb.read

/-- The scaled value of a cell, as a push and PUSHSLOW send it (R162, R172). -/
def State.pixelValue (s : State) (x y : Nat) : Byte := scale (s.readCommit x y) s.bright

/-! ## Waiting for the TRANSPORT -/

/-- PUSHSLOW's request for pixel k: its coordinates and its scaled value (R172). -/
def State.pixelRequest (s : State) (k : Nat) : Request :=
  let x := (pixelOf s.cfg.toParams k).1
  let y := (pixelOf s.cfg.toParams k).2
  .writeSinglePixel (BitVec.ofNat 8 x) (BitVec.ofNat 8 y) (s.pixelValue x y)

/-- Issue PUSHSLOW's request for pixel k, with CTL = WAIT_PIXEL(k) (R172). -/
def State.issuePixel (s : State) (k : Nat) : State := s.issue (.waitPixel k) (s.pixelRequest k)

/-- The command in progress ends with a transport answer: CTL is IDLE, FB is gone, the response is sent (R166, R174,
60_exceptions.md R228). -/
def State.finish (s : State) (a : Answer) : State :=
  ({ s with ctl := .idle, fb := none }).respond (answerResponse a)

/-- The transport request of the command in progress, fixed by CTL (10_state.md R27, R41). -/
def State.currentRequest (s : State) : Option Request :=
  match s.ctl with
  | .idle => none
  | .waitFrame => s.fb.map fun fb => .writeFullFrame (framePayload s.cfg.toParams fb)
  | .waitFill => some (.fillAll s.cfg.fullOnValue)
  | .waitPixel k => some (s.pixelRequest k)
  | .faulted => none

/-- The abandoned request's answer has come and is discarded (R40). The request of the command in progress, if there is
one, is issued now (20_memory.md R65). -/
def State.release (s : State) : State :=
  { s with abandoned := false, events := s.events ++ s.currentRequest.toList.map .request }

/-- One answer arrives. At most one request is unanswered (R43, 20_memory.md R65), so the answer is that request's: an
abandoned one's is discarded, and the outstanding one's ends the command or takes PUSHSLOW to its next pixel (R172).
If an abandoned request is never answered, no later request is issued and a later transport command waits for ever: log
4. -/
def State.deliver (s : State) (a : Answer) : State :=
  if s.abandoned then s.release
  else
    match s.ctl with
    | .waitFrame => s.finish a
    | .waitFill => s.finish a
    | .waitPixel k =>
      match a with
      | .err e => s.finish (.err e)
      | .ok => if k + 1 < s.cfg.cells then s.issuePixel (k + 1) else s.finish .ok
    | .idle => s
    | .faulted => s

/-- The waiting command goes on as long as the moves to come begin with an answer. It stops at the first other move, or
when no request is outstanding any more. -/
def State.absorb : List Input → State → State
  | .answer a :: rest, s => if s.awaiting then State.absorb rest (({ s with inputs := rest }).deliver a) else s
  | _, s => s

/-- The command in progress runs as far as the TRANSPORT's answers take it. If the next move is not an answer it stays in
its WAIT state, for ever if none comes (R43). -/
def State.resume (s : State) : State := State.absorb s.inputs s

/-- push() (R166): compose, CTL = WAIT_FRAME, one WRITE_FULL_FRAME request, then the answer. -/
def State.push (s : State) : State :=
  let fb := composeFrame s.cfg.toParams s.commit s.bright
  State.resume (({ s with fb := some fb }).issue .waitFrame (.writeFullFrame (framePayload s.cfg.toParams fb)))

end Sys2Proof.Machine
end

