-- ==== Sys2Proof/Machine/Compositor.lean ====
section
/-! DEFINITION. The commands of DisplayState, the compositor and the batched-write controller: SETGRID, SETBRT, PUSH,
PUSHSLOW, FULLON and RDBRT (42_compositor.md). -/

namespace Sys2Proof.Machine

/-- Every cell, with its value in WORK (R178). -/
def setgridWrites (p : Params) (work : Memory) : List (Nat × Byte) :=
  (gridByColumns p).map fun c => (cellIndex p c.1 c.2, work.read (cellIndex p c.1 c.2))

/-- SETGRID (R178): COMMIT <- WORK, complete before push() reads it. No rollback on failure (R179). -/
def execSetgrid (s : State) : Host.Outcome State Fault Refusal :=
  .next (s.writeCommit (setgridWrites s.cfg.toParams s.work)).push

/-- SETBRT b (R180): BRIGHT <- b, then push(). No rollback on failure (R179). -/
def execSetbrt (b : Byte) (s : State) : Host.Outcome State Fault Refusal :=
  .next ({ s with bright := b }).push

/-- PUSH (R170). -/
def execPush (s : State) : Host.Outcome State Fault Refusal := .next s.push

/-- PUSHSLOW (R172): the request of pixel 0, then one pixel an answer, up to the first failure. -/
def execPushslow (s : State) : Host.Outcome State Fault Refusal := .next (s.issuePixel 0).resume

/-- FULLON (R174): FILL_ALL(FULL_ON_VALUE), then the answer. No mode is kept (R175). -/
def execFullon (s : State) : Host.Outcome State Fault Refusal :=
  .next (s.issue .waitFill (.fillAll s.cfg.fullOnValue)).resume

/-- RDBRT (R182): the response carries BRIGHT. -/
def execRdbrt (s : State) : Host.Outcome State Fault Refusal := .next (s.respond (okResponse [s.bright]))

end Sys2Proof.Machine
end

