-- ==== Sys2Proof/Machine/Framebuffer.lean ====
section
/-! DEFINITION. The framebuffer commands CLEAR, WRCELL, RDCELL, LOADGRID and LOADPK (40_framebuffer.md). They reach WORK
only and make no transport request. -/

namespace Sys2Proof.Machine

/-- Every cell, with 0 (R110). -/
def clearWrites (p : Params) : List (Nat × Byte) :=
  (gridByColumns p).map fun c => (cellIndex p c.1 c.2, 0)

/-- CLEAR (R110). -/
def execClear (s : State) : Host.Outcome State Fault Refusal :=
  .next ((s.writeWork (clearWrites s.cfg.toParams)).respond (okResponse []))

/-- WRCELL x, y, v (R112): CELL_RANGE before any write, else WORK[x][y] <- v. -/
def execWrcell (x y v : Byte) (s : State) : Host.Outcome State Fault Refusal :=
  if inGrid s.cfg.toParams x y then
    .next ((s.writeWork [(cellIndex s.cfg.toParams x.toNat y.toNat, v)]).respond (okResponse []))
  else .next (s.raiseFault .cellRange Opcode.wrcell.byte)

/-- RDCELL x, y (R114): CELL_RANGE, else the response carries WORK[x][y]. -/
def execRdcell (x y : Byte) (s : State) : Host.Outcome State Fault Refusal :=
  if inGrid s.cfg.toParams x y then
    .next (s.respond (okResponse [s.readWork x.toNat y.toNat]))
  else .next (s.raiseFault .cellRange Opcode.rdcell.byte)

/-- Payload byte L goes to WORK[L mod WIDTH][L div WIDTH] (R116). -/
def loadgridWrites (p : Params) (c : List Byte) : List (Nat × Byte) :=
  (List.range p.cells).map fun l => (cellIndex p (l % p.width) (l / p.width), c.getD l 0)

/-- LOADGRID c (R116): no mirror. -/
def execLoadgrid (c : List Byte) (s : State) : Host.Outcome State Fault Refusal :=
  .next ((s.writeWork (loadgridWrites s.cfg.toParams c)).respond (okResponse []))

/-- Packed bit i = x + WIDTH * y goes to WORK[mirror_WIDTH(x)][y] as 0 or 255 (R118). -/
def loadpkWrites (p : Params) (pk : List Byte) : List (Nat × Byte) :=
  (gridByRows p).map fun c =>
    (cellIndex p (mirror p.width c.1) c.2, level (packedBit pk (c.1 + p.width * c.2)))

/-- LOADPK pk (R118). -/
def execLoadpk (pk : List Byte) (s : State) : Host.Outcome State Fault Refusal :=
  .next ((s.writeWork (loadpkWrites s.cfg.toParams pk)).respond (okResponse []))

end Sys2Proof.Machine
end

