-- ==== Sys2Proof/Machine/Glyph.lean ====
section
/-! DEFINITION. The glyph rasterizer's command GLYPH (41_glyph.md). It writes WORK only. -/

namespace Sys2Proof.Machine

/-- Glyph pixel (gx, gy) goes to WORK[mirror_8(gx)][gy + off] as 0 or 255: 64 writes (R140). Irreducible, so that no
proof unfolds the 64 writes by accident; it is reasoned about through its members (Laws/Ops.lean). -/
@[irreducible] def glyphWrites (p : Params) (off : Byte) (g : List Byte) : List (Nat × Byte) :=
  (List.range glyphN).flatMap fun gx =>
    (List.range glyphN).map fun gy =>
      (cellIndex p (mirror glyphN gx) (gy + off.toNat), level (glyphBit g gx gy))

/-- GLYPH off, g (R140): GLYPH_RANGE before any write, else the 64 writes. -/
def execGlyph (off : Byte) (g : List Byte) (s : State) : Host.Outcome State Fault Refusal :=
  if glyphFits s.cfg.toParams off then
    .next ((s.writeWork (glyphWrites s.cfg.toParams off g)).respond (okResponse []))
  else .next (s.raiseFault .glyphRange Opcode.glyph.byte)

end Sys2Proof.Machine
end

