-- ==== Sys2Proof/Machine/Dispatch.lean ====
section
/-! DEFINITION. One arm for each command of the opcode map (30_encoding.md R83). -/

namespace Sys2Proof.Machine

def exec (i : Instr) (s : State) : Host.Outcome State Fault Refusal :=
  match i with
  | .clear => Sys2Proof.Machine.execClear s
  | .wrcell x y v => Sys2Proof.Machine.execWrcell x y v s
  | .rdcell x y => Sys2Proof.Machine.execRdcell x y s
  | .loadgrid c => Sys2Proof.Machine.execLoadgrid c s
  | .loadpk pk => Sys2Proof.Machine.execLoadpk pk s
  | .glyph off g => Sys2Proof.Machine.execGlyph off g s
  | .setgrid => Sys2Proof.Machine.execSetgrid s
  | .setbrt b => Sys2Proof.Machine.execSetbrt b s
  | .push => Sys2Proof.Machine.execPush s
  | .pushslow => Sys2Proof.Machine.execPushslow s
  | .fullon => Sys2Proof.Machine.execFullon s
  | .rdbrt => Sys2Proof.Machine.execRdbrt s

end Sys2Proof.Machine
end

