-- ==== Sys2Proof/Machine/Ports.lean ====
section
/-! DEFINITION. The block's interfaces in motion (10_state.md R35 to R43): accepting a frame from CMD, and what a move of
HOST or TRANSPORT does. -/

namespace Sys2Proof.Machine

/-- The block accepts frame `f` (R38): it decodes it and runs its command, or enters FAULTED with the decoder's fault
(30_encoding.md R85). -/
def State.accept (s : State) (f : Frame) : Host.Outcome State Fault Refusal :=
  match decode s.cfg.toParams f with
  | .ok i => exec i s
  | .error r => .next (s.raiseFault r.cause r.opcode)

/-- TRANSPORT answers. An answer when no request is unanswered has no meaning (R42, log 5); any other is delivered, and the waiting command goes
on as far as further answers take it. -/
def State.takeAnswer (s : State) (a : Answer) : Host.Outcome State Fault Refusal :=
  if s.awaiting || s.abandoned then .next (s.deliver a).resume else .fault .answerWithoutRequest

/-- One move of the surroundings, when the block has nothing to do of its own. A frame is held in the port, "not lost and
not reordered" (R36). -/
def State.takeInput (s : State) : Input → Host.Outcome State Fault Refusal
  | .frame f => .next { s with cmd := s.cmd ++ [f] }
  | .answer a => s.takeAnswer a
  | .reset => .next s.assertReset
  | .quiet => .next s

/-- The frame the block accepts now, with the state it is accepted in: CTL = IDLE and a frame is held (R36). -/
def State.nextFrame (s : State) : Option (Frame × State) :=
  match s.ctl, s.cmd with
  | .idle, f :: rest => some (f, { s with cmd := rest })
  | _, _ => none

/-- Whether the next move of the surroundings is RESET, which comes before everything else (60_exceptions.md R226). -/
def State.resetNext (s : State) : Bool :=
  match s.inputs with
  | .reset :: _ => true
  | _ => false

/-- The moves to come, less any RESET they begin with. -/
def dropResets : List Input → List Input
  | .reset :: rest => dropResets rest
  | inputs => inputs

end Sys2Proof.Machine
end

