-- ==== Sys2Proof/Machine/Step.lean ====
section
/-! DEFINITION. One step of the machine, and the two hooks the host reads it through. The block has no program counter
and fetches nothing (10_state.md R34): its "fetch" is the acceptance of the oldest frame held on CMD (R36). -/

namespace Sys2Proof.Machine

/-- One step. RESET comes first (60_exceptions.md R226). An IDLE block accepts the oldest held frame and runs its command
(10_state.md R38). Otherwise the next move of the surroundings takes place; with none left the block stays as it is:
idle, or waiting for ever (R43), or FAULTED (60_exceptions.md R227). -/
def step (s : State) : Host.Outcome State Fault Refusal :=
  match (if s.resetNext then none else s.nextFrame), s.inputs with
  | some (f, s'), _ => s'.accept f
  | none, [] => .next s
  | none, i :: rest => ({ s with inputs := rest }).takeInput i

/-- The frame of a table row's word as the oldest frame held on CMD, with the block IDLE and no RESET coming first, so
that the very next step accepts exactly it. -/
def State.withFetchWord (s : State) (nbits w : Nat) : State :=
  { s with
    ctl := .idle
    cmd := tableFrame s.cfg.toParams nbits w :: s.cmd
    inputs := dropResets s.inputs }

end Sys2Proof.Machine
end

