-- ==== Sys2Proof/Machine/Assembler.lean ====
section
/-! DEFINITION. The assembler of 30_encoding.md R100 to R102: one line of text, as a list of characters, to the frame it
stands for. It runs on the HOST. -/

namespace Sys2Proof.Machine

/-- Why a line does not assemble. -/
inductive AsmError where
  /-- The first word is no mnemonic of R83 and not `.frame`. -/
  | mnemonic
  /-- The operands are not the mnemonic's (R100), or a number is malformed or above 255. -/
  | operands
  /-- An array has the wrong length (R100). -/
  | arrayLength
deriving DecidableEq, Repr

/-- The pieces of a line. -/
inductive Token where
  | word (cs : List Char)
  | comma
  | open
  | close
deriving DecidableEq, Repr

/-- An operand: a number or a byte array (R100). -/
inductive Operand where
  | number (b : Byte)
  | array (bs : List Byte)
deriving DecidableEq, Repr

/-- The word collected so far, if any, before the tokens that follow it. -/
def endWord (word : List Char) (tokens : List Token) : List Token :=
  if word = [] then tokens else .word word :: tokens

/-- The tokens of a line, `word` being the word collected so far. A `;` starts a comment to the end of the line. -/
def tokensFrom (word : List Char) : List Char → List Token
  | [] => endWord word []
  | c :: cs =>
    if c = ';' then endWord word []
    else if c = ',' then endWord word (.comma :: tokensFrom [] cs)
    else if c = '[' then endWord word (.open :: tokensFrom [] cs)
    else if c = ']' then endWord word (.close :: tokensFrom [] cs)
    else if c = ' ' ∨ c = '\t' then endWord word (tokensFrom [] cs)
    else tokensFrom (word ++ [c]) cs

/-- The value of a digit in base `base`. -/
def digitValue (base : Nat) (c : Char) : Option Nat :=
  let n := c.toNat
  let d :=
    if 48 ≤ n ∧ n ≤ 57 then n - 48
    else if 97 ≤ n ∧ n ≤ 102 then n - 87
    else if 65 ≤ n ∧ n ≤ 70 then n - 55
    else 16
  if d < base then some d else none

/-- The value of a string of digits after the value `acc`. -/
def digitsFrom (base acc : Nat) : List Char → Option Nat
  | [] => some acc
  | c :: cs =>
    match digitValue base c with
    | some d => digitsFrom base (base * acc + d) cs
    | none => none

/-- A number: decimal, or hex after `0x`; it must fit in one byte (R100). -/
def parseNumber (cs : List Char) : Option Byte :=
  let n :=
    match cs with
    | [] => none
    | '0' :: 'x' :: [] => none
    | '0' :: 'x' :: ds => digitsFrom 16 0 ds
    | ds => digitsFrom 10 0 ds
  match n with
  | some v => if v ≤ 255 then some (BitVec.ofNat 8 v) else none
  | none => none

/-- The operands of a line, separated by commas. `arr` is the array being read, if one is open. -/
def parseOperands : Option (List Byte) → List Token → Option (List Operand)
  | none, [.word w] => (parseNumber w).map fun b => [.number b]
  | none, .word w :: .comma :: rest =>
    match parseNumber w, parseOperands none rest with
    | some b, some os => some (.number b :: os)
    | _, _ => none
  | none, .open :: rest => parseOperands (some []) rest
  | some arr, .word w :: .comma :: rest =>
    match parseNumber w with
    | some b => parseOperands (some (arr ++ [b])) rest
    | none => none
  | some arr, [.word w, .close] => (parseNumber w).map fun b => [.array (arr ++ [b])]
  | some arr, .word w :: .close :: .comma :: rest =>
    match parseNumber w, parseOperands none rest with
    | some b, some os => some (.array (arr ++ [b]) :: os)
    | _, _ => none
  | _, _ => none

/-- The operands after the first word: none at all, or a comma-separated list. -/
def lineOperands (tokens : List Token) : Option (List Operand) :=
  if tokens = [] then some [] else parseOperands none tokens

/-- The mnemonics of R83, letter by letter. -/
def mnemonicOf : Opcode → List Char
  | .clear => ['C', 'L', 'E', 'A', 'R']
  | .wrcell => ['W', 'R', 'C', 'E', 'L', 'L']
  | .rdcell => ['R', 'D', 'C', 'E', 'L', 'L']
  | .loadgrid => ['L', 'O', 'A', 'D', 'G', 'R', 'I', 'D']
  | .loadpk => ['L', 'O', 'A', 'D', 'P', 'K']
  | .glyph => ['G', 'L', 'Y', 'P', 'H']
  | .setgrid => ['S', 'E', 'T', 'G', 'R', 'I', 'D']
  | .setbrt => ['S', 'E', 'T', 'B', 'R', 'T']
  | .push => ['P', 'U', 'S', 'H']
  | .pushslow => ['P', 'U', 'S', 'H', 'S', 'L', 'O', 'W']
  | .fullon => ['F', 'U', 'L', 'L', 'O', 'N']
  | .rdbrt => ['R', 'D', 'B', 'R', 'T']

/-- The directive of R101. -/
def frameDirective : List Char := ['.', 'f', 'r', 'a', 'm', 'e']

/-- The command an opcode makes with operands of its format's shape (R100). -/
def commandOf : Opcode → List Operand → Option Instr
  | .clear, [] => some .clear
  | .wrcell, [.number x, .number y, .number v] => some (.wrcell x y v)
  | .rdcell, [.number x, .number y] => some (.rdcell x y)
  | .loadgrid, [.array c] => some (.loadgrid c)
  | .loadpk, [.array pk] => some (.loadpk pk)
  | .glyph, [.number off, .array g] => some (.glyph off g)
  | .setgrid, [] => some .setgrid
  | .setbrt, [.number b] => some (.setbrt b)
  | .push, [] => some .push
  | .pushslow, [] => some .pushslow
  | .fullon, [] => some .fullon
  | .rdbrt, [] => some .rdbrt
  | _, _ => none

/-- The raw bytes of a `.frame` directive: numbers only, unchecked (R101). -/
def rawBytes : List Operand → Option (List Byte)
  | [] => some []
  | .number b :: os => (rawBytes os).map fun bs => b :: bs
  | .array _ :: _ => none

/-- One line: nothing, for a blank or comment line; the frame it emits; or why it does not assemble. -/
def assembleLine (p : Params) (line : List Char) : Except AsmError (Option Frame) :=
  match tokensFrom [] line with
  | [] => .ok none
  | .word w :: tokens =>
    if w = frameDirective then
      match (lineOperands tokens).bind rawBytes with
      | some bs => .ok (some bs)
      | none => .error .operands
    else
      match Opcode.all.find? fun o => mnemonicOf o == w with
      | none => .error .mnemonic
      | some o =>
        match (lineOperands tokens).bind (commandOf o) with
        | some i => if i.wf p then .ok (some (encode i)) else .error .arrayLength
        | none => .error .operands
  | _ => .error .mnemonic

/-- The same for a line given as a string. -/
def assemble (p : Params) (line : String) : Except AsmError (Option Frame) := assembleLine p line.toList

end Sys2Proof.Machine
end

