-- ==== Sys2Proof/Machine/Generators.lean ====
section
/-! DEFINITION. The HOST's content generators (45_host_generators.md). They are outside the block: pure functions whose
grids reach it through LOADGRID, or through CLEAR and GLYPH. A grid is written as LOADGRID's payload: CELLS bytes, cell
(x, y) at linear index x + WIDTH * y. -/

namespace Sys2Proof.Machine

/-- A HOST contract violation: the generator has no result (60_exceptions.md R230). -/
inductive HostViolation where
  /-- percentage(p) with p > 100 (R205). -/
  | percentageAbove100
  /-- every_nth(0): zero modulus (R208). -/
  | zeroModulus
deriving DecidableEq, Repr

/-- The grid whose cell (x, y) is `f x y`, in physical columns (R200). -/
def gridOf (p : Params) (f : Nat → Nat → Byte) : List Byte :=
  (List.range p.cells).map fun l => f (l % p.width) (l / p.width)

/-- Cell (x, y) of a HOST grid. -/
def gridCell (p : Params) (grid : List Byte) (x y : Nat) : Byte := grid.getD (cellIndex p x y) 0

/-- gradient(DROP): min(255, DROP * (y + 1)), the product without wrap (R201). -/
def gradientGrid (p : Params) (drop : Nat) : List Byte :=
  gridOf p fun _ y => BitVec.ofNat 8 (min 255 (drop * (y + 1)))

/-- The lit rows of percentage(p): round(HEIGHT * p / 100), ties up (R204). -/
def percentageRows (p : Params) (percent : Byte) : Nat := (2 * p.height * percent.toNat + 100) / 200

/-- percentage(p): the bottom rows lit (R204), and no result above 100 (R205). -/
def percentage (p : Params) (percent : Byte) : Except HostViolation (List Byte) :=
  if percent.toNat ≤ 100 then
    .ok (gridOf p fun _ y => level (decide (p.height - percentageRows p percent ≤ y)))
  else .error .percentageAbove100

/-- every_nth(n): the columns x with x mod n = 0, and no result for n = 0 (R208). -/
def everyNth (p : Params) (n : Nat) : Except HostViolation (List Byte) :=
  if n = 0 then .error .zeroModulus else .ok (gridOf p fun x _ => level (decide (x % n = 0)))

/-- What is known of double_gradient (R203): no formula, only that brightness is greatest in a middle row and does not
increase from it toward either edge. Any grid with this property is one. -/
def IsDoubleGradient (p : Params) (grid : List Byte) : Prop :=
  grid.length = p.cells ∧ ∃ m, (m = p.height / 2 ∨ m = (p.height - 1) / 2) ∧ ∀ x, x < p.width →
    (∀ y, m ≤ y → y + 1 < p.height → (gridCell p grid x (y + 1)).toNat ≤ (gridCell p grid x y).toNat) ∧
    (∀ y, y < m → (gridCell p grid x y).toNat ≤ (gridCell p grid x (y + 1)).toNat)

/-- What is known of zigzag (R207): every cell is 0 or 255. -/
def IsZigzag (p : Params) (grid : List Byte) : Prop :=
  grid.length = p.cells ∧ ∀ v ∈ grid, v = 0 ∨ v = 255

/-! ## Status glyphs (R209) -/

/-- Why the device sleeps: "a closed enumeration" (R209). -/
inductive SleepReason where
  | command | sleepPin | timeout | usbSuspend
deriving DecidableEq, Repr

/-- One glyph of a composition: its offset along the rows and its bitmap (41_glyph.md R140, R145). -/
structure Letter where
  off : Byte
  bitmap : List Byte
deriving DecidableEq, Repr

/-- What a status generator gives: glyphs at fixed offsets, or "a literal precomputed Grid" (R209). -/
inductive StatusImage where
  | glyphs (letters : List Letter)
  | literal (grid : List Byte)
deriving DecidableEq, Repr

/-- The HOST's status data. No source gives the letters, offsets, bitmaps or grids (R209), so a claim holds for every
table: log 19. -/
structure StatusTable where
  command : List Letter
  sleepPin : List Letter
  timeout : List Letter
  usbSuspend : List Letter
  sleepIcon : StatusImage
  panicIcon : StatusImage
  logo : StatusImage
deriving DecidableEq, Repr

/-- `display_sleep_reason`: it dispatches on SleepReason to draw that reason's letters (R209). -/
def StatusTable.displaySleepReason (t : StatusTable) : SleepReason → StatusImage
  | .command => .glyphs t.command
  | .sleepPin => .glyphs t.sleepPin
  | .timeout => .glyphs t.timeout
  | .usbSuspend => .glyphs t.usbSuspend

/-- Letters that GLYPH can draw: 8 bytes each, at an offset that fits (41_glyph.md R140). -/
def lettersFit (p : Params) (letters : List Letter) : Prop :=
  ∀ l ∈ letters, l.bitmap.length = 8 ∧ l.off.toNat + 8 ≤ p.height

/-- "compose 3–5 glyphs", or a grid of CELLS bytes (R209). -/
def StatusImage.ok (p : Params) : StatusImage → Prop
  | .glyphs letters => 3 ≤ letters.length ∧ letters.length ≤ 5 ∧ lettersFit p letters
  | .literal grid => grid.length = p.cells

/-- "three/four letters" (R209). -/
def threeOrFour (p : Params) (letters : List Letter) : Prop :=
  (letters.length = 3 ∨ letters.length = 4) ∧ lettersFit p letters

/-- What R209 says of the HOST's table. -/
def StatusTable.ok (t : StatusTable) (p : Params) : Prop :=
  threeOrFour p t.command ∧ threeOrFour p t.sleepPin ∧ threeOrFour p t.timeout ∧ threeOrFour p t.usbSuspend ∧
  t.sleepIcon.ok p ∧ t.panicIcon.ok p ∧ t.logo.ok p

/-- The grid of a status image (R200): glyphs drawn on the all-zero grid, a later one over an earlier one (41_glyph.md
R145), or the literal grid. -/
def StatusImage.grid (p : Params) : StatusImage → List Byte
  | .glyphs letters =>
    let drawn : Memory := Memory.writeAll [] (letters.flatMap fun l => glyphWrites p l.off l.bitmap)
    gridOf p fun x y => Memory.read drawn (cellIndex p x y)
  | .literal grid => grid

/-- A status image in block terms (R209, 41_glyph.md R145): "CLEAR, then one GLYPH per letter, then SETGRID"; a literal
grid "is LOADGRID". -/
def StatusImage.frames : StatusImage → List Frame
  | .glyphs letters => encode .clear :: letters.map (fun l => encode (.glyph l.off l.bitmap)) ++ [encode .setgrid]
  | .literal grid => [encode (.loadgrid grid)]

end Sys2Proof.Machine
end

