-- ==== Sys2Proof/Safety.lean ====
section
/-! DEFINITION. What a sound state of the block is, in the terms the claims use. -/

namespace Sys2Proof.Machine

/-- The requests that await an answer: the abandoned one, or else the one of the command in progress (10_state.md R43). -/
def State.owed (s : State) : Nat := if s.awaiting || s.abandoned then 1 else 0

/-- Going from `s` to `t` sends `buf` as a WRITE_FULL_FRAME payload before anything else; or, while an abandoned request is
unanswered, holds that request back (log 4). -/
def SendsFrame (s t : State) (buf : List Byte) : Prop :=
  (∃ tail, t.events = s.events ++ .request (.writeFullFrame buf) :: tail) ∨
  (t.abandoned = true ∧ t.events = s.events ∧ t.currentRequest = some (.writeFullFrame buf))

/-- The response frames among the block's events, in order (R37). -/
def responsesOf (events : List Event) : List Frame :=
  events.filterMap fun
    | .response b => some b
    | .request _ => none

/-- The transport requests among the block's events, in order (20_memory.md R64 (d)). -/
def requestsOf (events : List Event) : List Request :=
  events.filterMap fun
    | .response _ => none
    | .request r => some r

/-- The transport answers among the moves of the surroundings, in order (R42). -/
def answersOf (inputs : List Input) : List Answer :=
  inputs.filterMap fun
    | .answer a => some a
    | .frame _ => none
    | .reset => none
    | .quiet => none

/-- The response that carries a transport answer, as 30_encoding.md R95 and R96 write it. -/
def statusBytes : Answer → Frame
  | .ok => [0x00]
  | .err e => [0x01, e]

/-- What the payload of a push of `commit` at brightness `bright` is (42_compositor.md R162 to R164): BUF_LEN bytes, each
cell's scaled value at its flat index, 0x00 where no cell maps. -/
def IsFrameOf (p : Params) (commit : Memory) (bright : Byte) (buf : List Byte) : Prop :=
  buf.length = p.bufLen ∧
  (∀ x y, x < p.width → y < p.height →
    buf[flat p x y]? =
      some (BitVec.ofNat 8 ((commit.read (cellIndex p x y)).toNat * bright.toNat / 255))) ∧
  (∀ k, k < p.bufLen → (∀ x y, x < p.width → y < p.height → flat p x y ≠ k) → buf[k]? = some 0x00)

/-- The invariant of the block's state. It holds at reset and every step keeps it. -/
structure State.Inv (s : State) : Prop where
  /-- WORK is in canonical form and has no cell outside the grid (10_state.md R21, 20_memory.md R50). -/
  work_wf : s.work.wf
  work_within : s.work.within s.cfg.cells
  /-- COMMIT has the same shape (R22). -/
  commit_wf : s.commit.wf
  commit_within : s.commit.within s.cfg.cells
  /-- FB is BUF_LEN bytes, the composition of COMMIT and BRIGHT (R28, 42_compositor.md R162). -/
  fb_wf : ∀ fb, s.fb = some fb → fb.wf ∧ fb.within s.cfg.bufLen
  fb_composed : ∀ fb, s.fb = some fb → fb = composeFrame s.cfg.toParams s.commit s.bright
  /-- FB exists exactly in WAIT_FRAME (R27, R28). -/
  fb_life : s.fb.isSome = true ↔ s.ctl = .waitFrame
  /-- FAULT is asserted exactly in CTL = FAULTED (R26, 60_exceptions.md R222). -/
  faulted_iff : s.ctl = .faulted ↔ s.faultLevel = true
  /-- FSR is 0x0000 or the record of one of the four causes (R25, 60_exceptions.md R221). -/
  fsr_legal : s.fsr = 0 ∨ ∃ cause opcode, s.fsr = fsrWord (causeCode cause) opcode
  /-- WAIT_PIXEL(k) has 0 <= k < CELLS (R27). -/
  pixel_lt : ∀ k, s.ctl = .waitPixel k → k < s.cfg.cells
  /-- A request that has been issued is the last thing the block emitted: nothing follows it before its answer (R43). -/
  request_last : s.abandoned = false → ∀ r, s.currentRequest = some r → s.events.getLast? = some (.request r)

end Sys2Proof.Machine
end

