-- ==== Sys2Proof/Certificates/Slice0/Obligations.lean ====
section
/-! DEFINITION. The statements for the provers. A next state is written as the old one with the fields that change, so
that every field not named is unchanged: that is the frame. -/

open Sys2Proof Sys2Proof.Machine

/-! ## Encoding -/

/-- Decode and encode agree: every well-formed command of the set is read back from its frame (30_encoding.md R80 to
R85). -/
def Obligations.DecodeReadsBackEveryEncodedCommand : Prop :=
  ∀ (p : Params) (i : Instr), i.wf p = true → decode p (encode i) = .ok i

/-- The other direction: a frame that decodes is the one encoding of a well-formed command (30_encoding.md R81, R102). -/
def Obligations.DecodedFrameIsTheOneEncoding : Prop :=
  ∀ (p : Params) (f : Frame) (i : Instr), decode p f = .ok i → encode i = f ∧ i.wf p = true

/-- Which frames are rejected, and with which fault and recorded opcode (30_encoding.md R85). -/
def Obligations.DecodeRejectsByTheFirstFailingCheck : Prop :=
  ∀ (p : Params) (f : Frame) (r : Reject), decode p f = .error r ↔
    (f = [] ∧ r = ⟨.length, 0x00⟩) ∨
    (∃ op l, f = op :: l ∧ (∀ o : Opcode, o.byte ≠ op) ∧ r = ⟨.illegalOpcode, op⟩) ∨
    (∃ (o : Opcode) (l : List Byte), f = o.byte :: l ∧ f.length ≠ o.length p ∧ r = ⟨.length, o.byte⟩)

/-- The reserved opcodes (30_encoding.md R84): exactly the byte values listed; each faults with ILLEGAL_OPCODE and is
recorded, nothing else happens, whatever follows it; and no operand bit is reserved, since every frame of its opcode's
length decodes. -/
def Obligations.ReservedOpcodesFaultAndNothingElseIsReserved : Prop :=
  (∀ b : Byte, Opcode.ofByte b = none ↔
    b.toNat = 0x00 ∨ b.toNat = 0x06 ∨ b.toNat = 0x07 ∨ (0x09 ≤ b.toNat ∧ b.toNat ≤ 0x0F) ∨ 0x16 ≤ b.toNat) ∧
  (∀ (s : State) (b : Byte) (l : List Byte) (held : List Frame), Opcode.ofByte b = none → s.ctl = .idle →
    s.cmd = (b :: l) :: held → (∀ rest, s.inputs ≠ .reset :: rest) →
    step s = .next { s with cmd := held, fsr := b ++ (0x02 : Byte), ctl := .faulted }) ∧
  (∀ (p : Params) (o : Opcode) (l : List Byte), (o.byte :: l).length = o.length p →
    ∃ i, decode p (o.byte :: l) = .ok i)

/-- A word of each family, written out from 30_encoding.md R81 and R83 under the reference dimensions (sanity). -/
def Obligations.SampleFramesDecode : Prop :=
  decode Params.testcfg [0x01] = .ok .clear ∧
  decode Params.testcfg [0x02, 0x08, 0x21, 0x80] = .ok (.wrcell 8 33 128) ∧
  decode Params.testcfg [0x08, 0x1A, 0xFF, 0, 0, 0, 0, 0, 0, 0x80] = .ok (.glyph 26 [255, 0, 0, 0, 0, 0, 0, 128]) ∧
  decode Params.testcfg [0x11, 0x33] = .ok (.setbrt 51) ∧
  decode Params.testcfg [0x13] = .ok .pushslow

/-- Only a `.frame` line emits a frame that is not a command's encoding: what any other line assembles to decodes
(30_encoding.md R100 to R102). -/
def Obligations.AssembledCommandDecodes : Prop :=
  ∀ (p : Params) (line : List Char) (f : Frame), assembleLine p line = .ok (some f) →
    (∃ tokens, tokensFrom [] line = .word frameDirective :: tokens) ∨ ∃ i, decode p f = .ok i ∧ i.wf p = true

/-! ## Steps -/

/-- An IDLE block with no RESET coming first runs the command its oldest held frame decodes to; the frame is taken from
the port first (10_state.md R36, R38; 30_encoding.md R85). -/
def Obligations.StepRunsTheDecodedCommand : Prop :=
  ∀ (s : State) (f : Frame) (held : List Frame) (i : Instr), s.ctl = .idle → s.cmd = f :: held →
    (∀ rest, s.inputs ≠ .reset :: rest) → decode s.cfg.toParams f = .ok i →
    step s = exec i { s with cmd := held }

/-- An IDLE block whose oldest held frame is rejected records the fault and stops; nothing else changes (30_encoding.md
R85, 60_exceptions.md R222). -/
def Obligations.StepFaultsOnARejectedFrame : Prop :=
  ∀ (s : State) (f : Frame) (held : List Frame) (r : Reject), s.ctl = .idle → s.cmd = f :: held →
    (∀ rest, s.inputs ≠ .reset :: rest) → decode s.cfg.toParams f = .error r →
    step s = .next { s with cmd := held, fsr := r.opcode ++ causeCode r.cause, ctl := .faulted }

/-! ## Framebuffer commands -/

/-- CLEAR (40_framebuffer.md R110). -/
def Obligations.ClearZeroesEveryCell : Prop :=
  ∀ s : State, s.work.wf → decode s.cfg.toParams [0x01] = .ok .clear ∧
    ∃ w, exec .clear s = .next { s with work := w, events := s.events ++ [.response [0x00]] } ∧
      (∀ x y, x < s.cfg.width → y < s.cfg.height → w.read (cellIndex s.cfg.toParams x y) = 0) ∧
      (∀ a, s.cfg.cells ≤ a → w.read a = s.work.read a)

/-- CLEAR leaves WORK equal to its reset value, the all-zero grid (40_framebuffer.md R111). -/
def Obligations.ClearGivesTheResetGrid : Prop :=
  ∀ s t : State, s.work.wf → s.work.within s.cfg.cells → exec .clear s = .next t →
    t.work = (State.resetOf s.cfg).work ∧ ∀ a, t.work.read a = 0

/-- WRCELL (40_framebuffer.md R112): one cell in range, CELL_RANGE out of range. -/
def Obligations.WrcellWritesOneCellOrFaults : Prop :=
  ∀ (s : State) (x y v : Byte), s.work.wf →
    decode s.cfg.toParams [0x02, x, y, v] = .ok (.wrcell x y v) ∧
    (x.toNat < s.cfg.width → y.toNat < s.cfg.height →
      ∃ w, exec (.wrcell x y v) s = .next { s with work := w, events := s.events ++ [.response [0x00]] } ∧
        w.read (cellIndex s.cfg.toParams x.toNat y.toNat) = v ∧
        ∀ a, a ≠ cellIndex s.cfg.toParams x.toNat y.toNat → w.read a = s.work.read a) ∧
    (s.cfg.width ≤ x.toNat ∨ s.cfg.height ≤ y.toNat →
      exec (.wrcell x y v) s = .next { s with fsr := 0x0203, ctl := .faulted })

/-- RDCELL (40_framebuffer.md R114): it answers the cell of WORK and changes nothing; CELL_RANGE out of range. -/
def Obligations.RdcellAnswersTheCellOrFaults : Prop :=
  ∀ (s : State) (x y : Byte),
    decode s.cfg.toParams [0x03, x, y] = .ok (.rdcell x y) ∧
    (x.toNat < s.cfg.width → y.toNat < s.cfg.height →
      exec (.rdcell x y) s = .next { s with
        events := s.events ++ [.response [0x00, s.work.read (cellIndex s.cfg.toParams x.toNat y.toNat)]] }) ∧
    (s.cfg.width ≤ x.toNat ∨ s.cfg.height ≤ y.toNat →
      exec (.rdcell x y) s = .next { s with fsr := 0x0303, ctl := .faulted })

/-- A cell just written reads back its value, and every other cell what it read before (20_memory.md R64 (a)). -/
def Obligations.RdcellAfterWrcell : Prop :=
  ∀ (s t : State) (x y v x' y' : Byte), s.work.wf → x.toNat < s.cfg.width → y.toNat < s.cfg.height →
    x'.toNat < s.cfg.width → y'.toNat < s.cfg.height → exec (.wrcell x y v) s = .next t →
    exec (.rdcell x' y') t = .next { t with events := t.events ++
      [.response [0x00, if x' = x ∧ y' = y then v
        else s.work.read (cellIndex s.cfg.toParams x'.toNat y'.toNat)]] }

/-- LOADGRID (40_framebuffer.md R116): payload byte L is the cell of linear index L; no mirror. -/
def Obligations.LoadgridPlacesByLinearIndex : Prop :=
  ∀ (s : State) (cells : List Byte), s.work.wf → cells.length = s.cfg.cells →
    decode s.cfg.toParams (0x04 :: cells) = .ok (.loadgrid cells) ∧
    ∃ w, exec (.loadgrid cells) s = .next { s with work := w, events := s.events ++ [.response [0x00]] } ∧
      (∀ l, l < s.cfg.cells →
        cells[l]? = some (w.read (cellIndex s.cfg.toParams (l % s.cfg.width) (l / s.cfg.width)))) ∧
      (∀ a, s.cfg.cells ≤ a → w.read a = s.work.read a)

/-- LOADPK (40_framebuffer.md R118): bit x + WIDTH * y, LSB first, lights the cell in the mirrored column. -/
def Obligations.LoadpkDecodesWithTheMirror : Prop :=
  ∀ (s : State) (pk : List Byte), s.work.wf → pk.length = s.cfg.pkLen →
    decode s.cfg.toParams (0x05 :: pk) = .ok (.loadpk pk) ∧
    ∃ w, exec (.loadpk pk) s = .next { s with work := w, events := s.events ++ [.response [0x00]] } ∧
      (∀ x y, x < s.cfg.width → y < s.cfg.height → ∃ byte, pk[(x + s.cfg.width * y) / 8]? = some byte ∧
        w.read (cellIndex s.cfg.toParams (s.cfg.width - 1 - x) y) =
          if byte.getLsbD ((x + s.cfg.width * y) % 8) then 255 else 0) ∧
      (∀ a, s.cfg.cells ≤ a → w.read a = s.work.read a)

/-- The mirror seen from the physical column (40_framebuffer.md R120): a cell is 255 exactly when the bit of its mirrored
column is set; the row is not mirrored. -/
def Obligations.LoadpkLightsTheMirroredBit : Prop :=
  ∀ (s t : State) (pk : List Byte), s.work.wf → pk.length = s.cfg.pkLen → exec (.loadpk pk) s = .next t →
    ∀ xp y, xp < s.cfg.width → y < s.cfg.height →
      (t.readWork xp y = 255 ↔
        ∃ byte, pk[(s.cfg.width - 1 - xp + s.cfg.width * y) / 8]? = some byte ∧
          byte.getLsbD ((s.cfg.width - 1 - xp + s.cfg.width * y) % 8) = true)

/-- LOADPK writes every cell exactly once, the mirror being a bijection, so nothing of the old WORK survives and the
order of its writes is unobservable (40_framebuffer.md R119). -/
def Obligations.LoadpkReplacesTheWholeGrid : Prop :=
  ∀ (s : State) (w : Memory) (pk : List Byte) (t t' : State), s.work.wf → s.work.within s.cfg.cells → w.wf →
    w.within s.cfg.cells → exec (.loadpk pk) s = .next t → exec (.loadpk pk) { s with work := w } = .next t' →
    t'.work = t.work ∧
    (∀ x, x < s.cfg.width → mirror s.cfg.width x < s.cfg.width ∧ mirror s.cfg.width (mirror s.cfg.width x) = x) ∧
    (∀ x y, x < s.cfg.width → y < s.cfg.height →
      ((loadpkWrites s.cfg.toParams pk).map Prod.fst).count (cellIndex s.cfg.toParams x y) = 1) ∧
    (∀ writes, writes.Perm (loadpkWrites s.cfg.toParams pk) → s.work.writeAll writes = t.work)

/-- LOADPK ignores the padding bits (40_framebuffer.md R121): packed frames that agree on the bits below CELLS give the
same state. -/
def Obligations.LoadpkIgnoresPadding : Prop :=
  ∀ (s : State) (pk pk' : List Byte), pk.length = s.cfg.pkLen → pk'.length = s.cfg.pkLen →
    (∀ l, l < s.cfg.cells → (pk.getD (l / 8) 0).getLsbD (l % 8) = (pk'.getD (l / 8) 0).getLsbD (l % 8)) →
    exec (.loadpk pk) s = exec (.loadpk pk') s

/-- Intermediate levels enter WORK only by WRCELL or LOADGRID (40_framebuffer.md R122): after LOADPK every cell is 0 or
255, and after any command but those two a cell is 0, 255 or what it was. -/
def Obligations.LevelsEnterOnlyByWrcellOrLoadgrid : Prop :=
  (∀ (s t : State) (pk : List Byte), s.work.wf → exec (.loadpk pk) s = .next t →
    ∀ x y, x < s.cfg.width → y < s.cfg.height → t.readWork x y = 0 ∨ t.readWork x y = 255) ∧
  (∀ (i : Instr) (s t : State), s.work.wf → (∀ x y v, i ≠ .wrcell x y v) → (∀ c, i ≠ .loadgrid c) →
    exec i s = .next t → ∀ a, t.work.read a = 0 ∨ t.work.read a = 255 ∨ t.work.read a = s.work.read a)

/-- Repeating CLEAR, WRCELL, LOADGRID, LOADPK or GLYPH leaves WORK as the first left it (20_memory.md R61). -/
def Obligations.FramebufferWritesAreIdempotent : Prop :=
  ∀ (i : Instr) (s t u : State), s.work.wf →
    (i = .clear ∨ (∃ x y v, i = .wrcell x y v) ∨ (∃ c, i = .loadgrid c) ∨ (∃ pk, i = .loadpk pk) ∨
      (∃ off g, i = .glyph off g)) →
    exec i s = .next t → exec i t = .next u → u = { t with events := u.events }

/-! ## Glyph rasterizer -/

/-- GLYPH (41_glyph.md R140): glyph pixel (gx, gy) goes to cell (7 - gx, gy + off) as 255 or 0; GLYPH_RANGE when
off + 8 > HEIGHT, the sum not reduced. -/
def Obligations.GlyphDrawsItsBoxOrFaults : Prop :=
  ∀ (s : State) (off : Byte) (g : List Byte), s.work.wf → g.length = 8 →
    decode s.cfg.toParams (0x08 :: off :: g) = .ok (.glyph off g) ∧
    (off.toNat + 8 ≤ s.cfg.height →
      ∃ w, exec (.glyph off g) s = .next { s with work := w, events := s.events ++ [.response [0x00]] } ∧
        (∀ gx gy, gx < 8 → gy < 8 → ∃ byte, g[gx]? = some byte ∧
          w.read (cellIndex s.cfg.toParams (7 - gx) (gy + off.toNat)) = if byte.getLsbD gy then 255 else 0) ∧
        (∀ a, (∀ gx gy, gx < 8 → gy < 8 → a ≠ cellIndex s.cfg.toParams (7 - gx) (gy + off.toNat)) →
          w.read a = s.work.read a)) ∧
    (s.cfg.height < off.toNat + 8 →
      exec (.glyph off g) s = .next { s with fsr := 0x0804, ctl := .faulted })

/-- GLYPH writes exactly the 64 cells with x in 0..7 and y in off..off+7, each once, and leaves every other cell
unchanged: columns 8 and up always (41_glyph.md R141). -/
def Obligations.GlyphWritesExactlyItsBox : Prop :=
  ∀ (s t : State) (off : Byte) (g : List Byte), off.toNat + 8 ≤ s.cfg.height → exec (.glyph off g) s = .next t →
    (glyphWrites s.cfg.toParams off g).length = 64 ∧
    ((glyphWrites s.cfg.toParams off g).map Prod.fst).Nodup ∧
    (∀ x y, x < s.cfg.width → y < s.cfg.height →
      (cellIndex s.cfg.toParams x y ∈ (glyphWrites s.cfg.toParams off g).map Prod.fst ↔
        x < 8 ∧ off.toNat ≤ y ∧ y < off.toNat + 8)) ∧
    (∀ x y, x < s.cfg.width → y < s.cfg.height → ¬(x < 8 ∧ off.toNat ≤ y ∧ y < off.toNat + 8) →
      t.readWork x y = s.readWork x y)

/-- GLYPH overwrites and does not OR: the 64 cells after it depend on the glyph alone, a clear bit writes 0, and the order
of its writes is unobservable (41_glyph.md R142). -/
def Obligations.GlyphOverwritesItsBox : Prop :=
  ∀ (s : State) (w : Memory) (off : Byte) (g : List Byte) (t t' : State), s.work.wf → w.wf →
    off.toNat + 8 ≤ s.cfg.height → exec (.glyph off g) s = .next t →
    exec (.glyph off g) { s with work := w } = .next t' →
    (∀ x y, x < 8 → off.toNat ≤ y → y < off.toNat + 8 → t'.readWork x y = t.readWork x y) ∧
    (∀ gx gy byte, gx < 8 → gy < 8 → g[gx]? = some byte → byte.getLsbD gy = false →
      t.readWork (7 - gx) (gy + off.toNat) = 0) ∧
    (∀ writes, writes.Perm (glyphWrites s.cfg.toParams off g) → s.work.writeAll writes = t.work)

/-- The read-back property (41_glyph.md R147): on an all-zero WORK, GLYPH 0 and then RDCELL (7 - gx, gy) answers the
glyph's pixel. -/
def Obligations.GlyphReadsBackMirrored : Prop :=
  ∀ (s t : State) (g : List Byte) (gx gy : Nat), s.work.wf → (∀ a, s.work.read a = 0) → g.length = 8 → gx < 8 → gy < 8 →
    exec (.glyph 0 g) s = .next t →
    ∃ byte, g[gx]? = some byte ∧
      exec (.rdcell (BitVec.ofNat 8 (7 - gx)) (BitVec.ofNat 8 gy)) t =
        .next { t with events := t.events ++ [.response [0x00, if byte.getLsbD gy then 255 else 0]] }

/-! ## Compositor functions -/

/-- The brightness multiply is the exact quotient, its product fitting in 16 bits (42_compositor.md R160). -/
def Obligations.ScaleIsTheExactQuotient : Prop :=
  ∀ g b : Byte, (scale g b).toNat = g.toNat * b.toNat / 255 ∧ g.toNat * b.toNat ≤ 65025

/-- The laws of scale (42_compositor.md R165). -/
def Obligations.ScaleLaws : Prop :=
  (∀ b : Byte, scale 255 b = b) ∧ (∀ g : Byte, scale g 0 = 0) ∧ (∀ g : Byte, scale g 255 = g) ∧
  (∀ g b : Byte, scale g b = scale b g) ∧
  (∀ g b : Byte, (scale g b).toNat ≤ min g.toNat b.toNat) ∧
  (∀ g g' b b' : Byte, g.toNat ≤ g'.toNat → b.toNat ≤ b'.toNat → (scale g b).toNat ≤ (scale g' b').toNat) ∧
  (∀ g b : Byte, scale g b = 0 ↔ g.toNat * b.toNat < 255)

/-- The mapper (42_compositor.md R161): a cell's flat index is page * PAGE_SIZE + register of its table entry, it lies
inside the buffer, and no two cells share one. -/
def Obligations.MapperGivesEachCellItsOwnByte : Prop :=
  ∀ cfg : Config,
    (∀ x y, x < cfg.width → y < cfg.height → ∃ register page,
      cfg.map[x + cfg.width * y]? = some (register, page) ∧
      flat cfg.toParams x y = page * cfg.pageSize + register ∧ flat cfg.toParams x y < cfg.bufLen) ∧
    (∀ x y x' y', x < cfg.width → y < cfg.height → x' < cfg.width → y' < cfg.height →
      flat cfg.toParams x y = flat cfg.toParams x' y' → x = x' ∧ y = y')

/-- compose(): every cell's scaled value at its flat index; no byte is written by two cells, and the order in which cells
are visited is unobservable (42_compositor.md R163). -/
def Obligations.ComposeOrderIsUnobservable : Prop :=
  ∀ (cfg : Config) (commit : Memory) (bright : Byte),
    (∀ writes, writes.Perm (composeWrites cfg.toParams commit bright) →
      Memory.writeAll [] writes = composeFrame cfg.toParams commit bright) ∧
    ((composeWrites cfg.toParams commit bright).map Prod.fst).Nodup ∧
    (∀ x y, x < cfg.width → y < cfg.height →
      (composeFrame cfg.toParams commit bright).read (flat cfg.toParams x y) =
        scale (commit.read (cellIndex cfg.toParams x y)) bright)

/-- A buffer byte no cell maps to is 0x00 in every push (42_compositor.md R164): in the composed FB, and in the payload of
every WRITE_FULL_FRAME request that a step emits. -/
def Obligations.UnmappedBytesAreZeroInEveryPush : Prop :=
  (∀ (p : Params) (commit : Memory) (bright : Byte) (k : Nat),
    (∀ x y, x < p.width → y < p.height → flat p x y ≠ k) → (composeFrame p commit bright).read k = 0x00) ∧
  (∀ s t : State, s.Inv → step s = .next t → ∃ new, t.events = s.events ++ new ∧
    ∀ buf, .request (.writeFullFrame buf) ∈ new → ∀ k, k < s.cfg.bufLen →
      (∀ x y, x < s.cfg.width → y < s.cfg.height → flat s.cfg.toParams x y ≠ k) → buf[k]? = some 0x00)

/-! ## Compositor commands. If a request that a RESET abandoned is unanswered, `late` is its answer, which comes first, and
the command issues its own request only then (log 4); else `late` is empty. The next answer `a` is the command's own. -/

/-- PUSH (42_compositor.md R170, R166): one WRITE_FULL_FRAME request with the composed frame, then the response that
carries the answer; nothing of WORK, COMMIT, BRIGHT or FSR changes.`late` first: log 4. -/
def Obligations.PushSendsOneComposedFrame : Prop :=
  ∀ (s : State) (late : List Answer) (a : Answer) (rest : List Input), late.length = s.abandoned.toNat →
    s.inputs = late.map .answer ++ .answer a :: rest →
    decode s.cfg.toParams [0x12] = .ok .push ∧
    ∃ buf, IsFrameOf s.cfg.toParams s.commit s.bright buf ∧
      exec .push s = .next { s with ctl := .idle, fb := none, abandoned := false, inputs := rest, events := s.events ++
        [.request (.writeFullFrame buf), .response (statusBytes a)] }

/-- SETGRID (42_compositor.md R178): COMMIT takes every cell of WORK, then one push of the new COMMIT.`late` first: log 4. -/
def Obligations.SetgridCommitsThenPushes : Prop :=
  ∀ (s : State) (late : List Answer) (a : Answer) (rest : List Input), s.commit.wf → late.length = s.abandoned.toNat →
    s.inputs = late.map .answer ++ .answer a :: rest →
    decode s.cfg.toParams [0x10] = .ok .setgrid ∧
    ∃ c buf, (∀ x y, x < s.cfg.width → y < s.cfg.height →
        c.read (cellIndex s.cfg.toParams x y) = s.work.read (cellIndex s.cfg.toParams x y)) ∧
      (∀ k, s.cfg.cells ≤ k → c.read k = s.commit.read k) ∧
      IsFrameOf s.cfg.toParams c s.bright buf ∧
      exec .setgrid s = .next { s with
        commit := c, ctl := .idle, fb := none, abandoned := false, inputs := rest, events := s.events ++
          [.request (.writeFullFrame buf), .response (statusBytes a)] }

/-- SETBRT (42_compositor.md R180): BRIGHT takes the operand, then one push at the new brightness.`late` first: log 4. -/
def Obligations.SetbrtSetsThenPushes : Prop :=
  ∀ (s : State) (b : Byte) (late : List Answer) (a : Answer) (rest : List Input), late.length = s.abandoned.toNat →
    s.inputs = late.map .answer ++ .answer a :: rest →
    decode s.cfg.toParams [0x11, b] = .ok (.setbrt b) ∧
    ∃ buf, IsFrameOf s.cfg.toParams s.commit b buf ∧
      exec (.setbrt b) s = .next { s with
        bright := b, ctl := .idle, fb := none, abandoned := false, inputs := rest, events := s.events ++
          [.request (.writeFullFrame buf), .response (statusBytes a)] }

/-- After SETGRID or SETBRT whose push failed, the new COMMIT or BRIGHT stays, and a retry with PUSH sends the same
payload (42_compositor.md R179). That the command waits for the answer `late` first is log 4's choice, not the rule's. -/
def Obligations.FailedPushKeepsTheNewStateForRetry : Prop :=
  ∀ (i : Instr) (s : State) (late : List Answer) (e : Byte) (rest : List Input), s.commit.wf →
    (i = .setgrid ∨ ∃ b, i = .setbrt b) → late.length = s.abandoned.toNat →
    s.inputs = late.map .answer ++ .answer (.err e) :: rest →
    ∃ t buf, exec i s = .next t ∧
      t.events = s.events ++ [.request (.writeFullFrame buf), .response [0x01, e]] ∧
      (i = .setgrid → ∀ x y, x < s.cfg.width → y < s.cfg.height → t.readCommit x y = s.readWork x y) ∧
      (∀ b, i = .setbrt b → t.bright = b) ∧
      ∃ t' tail, exec .push t = .next t' ∧ t'.events = t.events ++ .request (.writeFullFrame buf) :: tail

/-- PUSHSLOW (42_compositor.md R172): one WRITE_SINGLE_PIXEL request a cell, x outer and y inner, each with the scaled
value; all answered Ok it responds [0x00]; at the first Err(e) it stops and responds [0x01, e].`late` first: log 4. -/
def Obligations.PushslowSendsPixelsInOrderUntilAFailure : Prop :=
  ∀ (s : State) (late : List Answer) (rest : List Input), late.length = s.abandoned.toNat →
    decode s.cfg.toParams [0x13] = .ok .pushslow ∧
    (s.inputs = late.map .answer ++ (List.replicate s.cfg.cells (.answer .ok) ++ rest) →
      exec .pushslow s = .next { s with ctl := .idle, fb := none, abandoned := false, inputs := rest, events := s.events ++
        ((List.range s.cfg.cells).map fun k => .request (.writeSinglePixel
          (BitVec.ofNat 8 (k / s.cfg.height)) (BitVec.ofNat 8 (k % s.cfg.height))
          (scale (s.readCommit (k / s.cfg.height) (k % s.cfg.height)) s.bright))) ++ [.response [0x00]] }) ∧
    (∀ n e, n < s.cfg.cells →
      s.inputs = late.map .answer ++ (List.replicate n (.answer .ok) ++ .answer (.err e) :: rest) →
      exec .pushslow s = .next { s with ctl := .idle, fb := none, abandoned := false, inputs := rest, events := s.events ++
        ((List.range (n + 1)).map fun k => .request (.writeSinglePixel
          (BitVec.ofNat 8 (k / s.cfg.height)) (BitVec.ofNat 8 (k % s.cfg.height))
          (scale (s.readCommit (k / s.cfg.height) (k % s.cfg.height)) s.bright))) ++ [.response [0x01, e]] })

/-- FULLON (42_compositor.md R174): one FILL_ALL(FULL_ON_VALUE) request, then the response; it reads and changes neither
grid nor BRIGHT, and keeps no mode.`late` first: log 4. -/
def Obligations.FullonFillsAndKeepsNoMode : Prop :=
  ∀ (s : State) (late : List Answer) (a : Answer) (rest : List Input), late.length = s.abandoned.toNat →
    s.inputs = late.map .answer ++ .answer a :: rest →
    decode s.cfg.toParams [0x14] = .ok .fullon ∧
    exec .fullon s = .next { s with ctl := .idle, fb := none, abandoned := false, inputs := rest, events := s.events ++
      [.request (.fillAll s.cfg.fullOnValue), .response (statusBytes a)] }

/-- RDBRT (42_compositor.md R182): the response carries BRIGHT and nothing changes. -/
def Obligations.RdbrtAnswersBrightness : Prop :=
  ∀ s : State, decode s.cfg.toParams [0x15] = .ok .rdbrt ∧
    exec .rdbrt s = .next { s with events := s.events ++ [.response [0x00, s.bright]] }

/-- A transport command whose answer does not come next stays in its WAIT state with its own write done (10_state.md R27,
R43). Its one request is issued, unless an abandoned request is still unanswered (`blocked`): then it is held back
(20_memory.md R65). That the command waits in its WAIT state then is log 4's choice. -/
def Obligations.TransportCommandsWaitForTheirAnswer : Prop :=
  ∀ (s : State) (blocked : Bool) (late : List Answer) (rest : List Input), s.commit.wf →
    late.length + blocked.toNat = s.abandoned.toNat →
    s.inputs = late.map .answer ++ rest → (∀ a rest', rest ≠ .answer a :: rest') →
    exec .fullon s = .next { s with
      ctl := .waitFill, abandoned := blocked, inputs := rest,
      events := s.events ++ if blocked then [] else [.request (.fillAll s.cfg.fullOnValue)] } ∧
    (∃ fb buf, buf = (List.range s.cfg.bufLen).map fb.read ∧ IsFrameOf s.cfg.toParams s.commit s.bright buf ∧
      exec .push s = .next { s with
        ctl := .waitFrame, fb := some fb, abandoned := blocked, inputs := rest,
        events := s.events ++ if blocked then [] else [.request (.writeFullFrame buf)] }) ∧
    (∀ b, ∃ fb buf, buf = (List.range s.cfg.bufLen).map fb.read ∧ IsFrameOf s.cfg.toParams s.commit b buf ∧
      exec (.setbrt b) s = .next { s with
        bright := b, ctl := .waitFrame, fb := some fb, abandoned := blocked, inputs := rest,
        events := s.events ++ if blocked then [] else [.request (.writeFullFrame buf)] }) ∧
    (∃ c fb buf, (∀ x y, x < s.cfg.width → y < s.cfg.height →
        c.read (cellIndex s.cfg.toParams x y) = s.work.read (cellIndex s.cfg.toParams x y)) ∧
      buf = (List.range s.cfg.bufLen).map fb.read ∧ IsFrameOf s.cfg.toParams c s.bright buf ∧
      exec .setgrid s = .next { s with
        commit := c, ctl := .waitFrame, fb := some fb, abandoned := blocked, inputs := rest,
        events := s.events ++ if blocked then [] else [.request (.writeFullFrame buf)] })

/-- PUSHSLOW whose answers stop coming waits at its pixel (10_state.md R27, R43; 42_compositor.md R172): after n Ok
answers the block is in WAIT_PIXEL(n) with the requests of pixels 0..n issued. While an abandoned request is unanswered
(`blocked`) it waits at pixel 0 with that request held back (20_memory.md R65, log 4). -/
def Obligations.PushslowWaitsAtItsPixel : Prop :=
  ∀ (s : State) (blocked : Bool) (late : List Answer) (n : Nat) (rest : List Input), n < s.cfg.cells →
    late.length + blocked.toNat = s.abandoned.toNat → (blocked = true → n = 0) →
    s.inputs = late.map .answer ++ (List.replicate n (.answer .ok) ++ rest) →
    (∀ a rest', rest ≠ .answer a :: rest') →
    exec .pushslow s = .next { s with
      ctl := .waitPixel n, abandoned := blocked, inputs := rest, events := s.events ++
        if blocked then [] else (List.range (n + 1)).map fun k => .request (.writeSinglePixel
          (BitVec.ofNat 8 (k / s.cfg.height)) (BitVec.ofNat 8 (k % s.cfg.height))
          (scale (s.readCommit (k / s.cfg.height) (k % s.cfg.height)) s.bright)) }

/-- The payload of a push depends on COMMIT and BRIGHT alone (42_compositor.md R171): two blocks of one configuration
whose COMMIT cells and BRIGHT agree send one payload, whatever the rest of their states and the answers. A block whose
abandoned request is unanswered holds its payload back (`SendsFrame`, log 4). -/
def Obligations.PushPayloadDependsOnDisplayStateAlone : Prop :=
  ∀ s s' : State, s'.cfg = s.cfg → s'.bright = s.bright →
    (∀ x y, x < s.cfg.width → y < s.cfg.height → s'.readCommit x y = s.readCommit x y) →
    ∃ buf t t', exec .push s = .next t ∧ exec .push s' = .next t' ∧ SendsFrame s t buf ∧ SendsFrame s' t' buf

/-- WORK is invisible to the TRANSPORT until SETGRID (70_reset_and_hazards.md R271): but for SETGRID and RDCELL, a command
run with another WORK differs in WORK alone, its responses and requests included. So does a step that accepts neither
of the two, the requests of a waiting PUSHSLOW included, and a step that stops does so with any WORK. -/
def Obligations.WorkIsInvisibleUntilSetgrid : Prop :=
  (∀ (i : Instr) (s : State) (w : Memory), i ≠ .setgrid → (∀ x y, i ≠ .rdcell x y) →
    ∃ t, exec i s = .next t ∧ ∃ w', exec i { s with work := w } = .next { t with work := w' }) ∧
  (∀ (s : State) (w : Memory),
    (∀ f held i, s.ctl = .idle → s.cmd = f :: held → decode s.cfg.toParams f = .ok i →
      i ≠ .setgrid ∧ ∀ x y, i ≠ .rdcell x y) →
    (∀ t, step s = .next t → ∃ w', step { s with work := w } = .next { t with work := w' }) ∧
    (∀ r, step s = .fault r → step { s with work := w } = .fault r))

/-! ## The whole machine -/

/-- The invariant holds at reset, under every configuration. -/
def Obligations.ResetStateIsSound : Prop := ∀ cfg : Config, (State.resetOf cfg).Inv

/-- Every step keeps the invariant, from every state that meets it: canonical grids inside the grid, FB only in WAIT_FRAME
and then the composition of COMMIT and BRIGHT, FAULT with FAULTED, a legal FSR, a legal pixel number, and nothing emitted
after a request that awaits its answer (log 4: unless it is held back). -/
def Obligations.EveryStepKeepsTheStateSound : Prop :=
  ∀ s t : State, s.Inv → step s = .next t → t.Inv

/-- No step changes the configuration (10_state.md R29). -/
def Obligations.ConfigurationIsConstant : Prop := ∀ s t : State, step s = .next t → t.cfg = s.cfg

/-- A configuration is accepted exactly when it meets 00_scope.md R7 and R8, spelled out here; any other is refused before
the block runs. -/
def Obligations.BootAcceptsExactlyTheLegalConfigurations : Prop :=
  ∀ p : Params,
    ((8 ≤ p.width ∧ p.width ≤ 256 ∧ 8 ≤ p.height ∧ p.height ≤ 256 ∧ 1 ≤ p.numPages ∧ 1 ≤ p.pageSize ∧ 1 ≤ p.bufLen ∧
      p.map.length = p.cells ∧
      (∀ x y, x < p.width → y < p.height → (mapCell p x y).2 < p.numPages ∧ (mapCell p x y).1 < p.pageSize ∧
        (mapCell p x y).2 * p.pageSize + (mapCell p x y).1 < p.bufLen) ∧
      (∀ x y x' y', x < p.width → y < p.height → x' < p.width → y' < p.height →
        mapCell p x y = mapCell p x' y' → x = x' ∧ y = y')) →
      ∃ cfg : Config, cfg.toParams = p ∧ boot p = .next (State.resetOf cfg)) ∧
    ((p.width < 8 ∨ 256 < p.width ∨ p.height < 8 ∨ 256 < p.height ∨ p.numPages = 0 ∨ p.pageSize = 0 ∨ p.bufLen = 0 ∨
      p.map.length ≠ p.cells ∨
      (∃ x y, x < p.width ∧ y < p.height ∧ (p.numPages ≤ (mapCell p x y).2 ∨ p.pageSize ≤ (mapCell p x y).1 ∨
        p.bufLen ≤ (mapCell p x y).2 * p.pageSize + (mapCell p x y).1)) ∨
      (∃ x y x' y', x < p.width ∧ y < p.height ∧ x' < p.width ∧ y' < p.height ∧
        mapCell p x y = mapCell p x' y' ∧ ¬(x = x' ∧ y = y'))) →
      boot p = .refused .configuration)

/-- RESET (70_reset_and_hazards.md R260, R261; 60_exceptions.md R226): it comes before everything else, in every state;
every element takes its reset value, held frames are discarded, an unanswered request is marked, so that its answer will
be discarded, and nothing is emitted. -/
def Obligations.ResetRestoresEveryElement : Prop :=
  ∀ (s : State) (rest : List Input), s.inputs = .reset :: rest →
    step s = .next {
      cfg := s.cfg, work := [], commit := [], bright := s.cfg.brightReset, fsr := 0x0000, ctl := .idle, fb := none,
      cmd := [], abandoned := s.abandoned || s.awaiting, events := s.events, inputs := rest }

/-- Who writes what (10_state.md R20, 42_compositor.md R183): but for RESET, a step changes WORK only by running one of the
five framebuffer and glyph commands, COMMIT only by SETGRID, BRIGHT only by SETBRT (to its operand), FSR only by entering
FAULTED. FB appears or changes only by PUSH, SETGRID or SETBRT and goes away only with an answer (log 14). CTL changes only
by a frame that an IDLE block accepts or an answer that a waiting block takes. -/
def Obligations.EachElementHasItsOwnWriters : Prop :=
  ∀ s t : State, (∀ rest, s.inputs ≠ .reset :: rest) → step s = .next t →
    (t.work ≠ s.work → ∃ f held i, s.ctl = .idle ∧ s.cmd = f :: held ∧ decode s.cfg.toParams f = .ok i ∧
      (i = .clear ∨ (∃ x y v, i = .wrcell x y v) ∨ (∃ c, i = .loadgrid c) ∨ (∃ pk, i = .loadpk pk) ∨
        (∃ off g, i = .glyph off g))) ∧
    (t.commit ≠ s.commit → ∃ f held, s.ctl = .idle ∧ s.cmd = f :: held ∧
      decode s.cfg.toParams f = .ok .setgrid) ∧
    (t.bright ≠ s.bright → ∃ f held, s.ctl = .idle ∧ s.cmd = f :: held ∧
      decode s.cfg.toParams f = .ok (.setbrt t.bright)) ∧
    (t.fsr ≠ s.fsr → s.ctl = .idle ∧ t.ctl = .faulted) ∧
    (t.fb ≠ none → t.fb ≠ s.fb → ∃ f held i, s.ctl = .idle ∧ s.cmd = f :: held ∧ decode s.cfg.toParams f = .ok i ∧
      (i = .push ∨ i = .setgrid ∨ ∃ b, i = .setbrt b)) ∧
    (t.fb = none → s.fb ≠ none → ∃ taken, s.inputs = taken ++ t.inputs ∧ answersOf taken ≠ []) ∧
    (t.ctl ≠ s.ctl → (s.ctl = .idle ∧ s.cmd ≠ []) ∨ (s.awaiting = true ∧ ∃ a rest, s.inputs = .answer a :: rest))

/-- Fault entry (60_exceptions.md R222): a step that enters FAULTED takes one frame from CMD, records the cause's code and
the frame's first byte (0x00 if it is empty) in FSR, deasserts READY, asserts FAULT, and changes nothing else; no
response, no request. -/
def Obligations.FaultEntryChangesOnlyFsrAndCtl : Prop :=
  ∀ s t : State, step s = .next t → s.ctl ≠ .faulted → t.ctl = .faulted →
    ∃ f held cause, s.cmd = f :: held ∧
      t = { s with cmd := held, fsr := f.headD 0x00 ++ causeCode cause, ctl := .faulted } ∧
      t.ready = false ∧ t.faultLevel = true

/-- The cause codes (60_exceptions.md R221). -/
def Obligations.CauseCodesAreAsListed : Prop :=
  causeCode .length = 0x01 ∧ causeCode .illegalOpcode = 0x02 ∧ causeCode .cellRange = 0x03 ∧
  causeCode .glyphRange = 0x04

/-- FAULTED lasts until RESET (60_exceptions.md R227): without one, a step of a faulted block keeps FSR, the grids, BRIGHT
and what was emitted, and accepts no frame: a frame offered is held behind the others. -/
def Obligations.FaultedUntilReset : Prop :=
  ∀ s t : State, s.ctl = .faulted → (∀ rest, s.inputs ≠ .reset :: rest) → step s = .next t →
    t = { s with cmd := t.cmd, abandoned := t.abandoned, inputs := t.inputs } ∧
    (t.cmd = s.cmd ∨ ∃ f rest, s.inputs = .frame f :: rest ∧ t.cmd = s.cmd ++ [f])

/-- FAULT is asserted from fault entry until RESET and there is no other way to clear it (10_state.md R26). -/
def Obligations.FaultLevelFallsOnlyByReset : Prop :=
  (∀ s : State, s.faultLevel = true ↔ s.fsr.extractLsb' 0 8 ≠ 0x00) ∧
  (∀ s t : State, s.Inv → step s = .next t → s.faultLevel = true →
    t.faultLevel = true ∨ ∃ rest, s.inputs = .reset :: rest) ∧
  (∀ s t : State, s.Inv → step s = .next t → s.ctl ≠ .faulted → t.ctl = .faulted → t.faultLevel = true)

/-- A waiting block does nothing of its own (10_state.md R36, R43; 70_reset_and_hazards.md R274): until an answer or a
RESET comes it stays in its WAIT state and emits nothing, and a frame offered is held behind the others. -/
def Obligations.WaitingBlockOnlyHoldsFrames : Prop :=
  ∀ s : State, s.awaiting = true → (∀ rest, s.inputs ≠ .reset :: rest) → (∀ a rest, s.inputs ≠ .answer a :: rest) →
    ∃ held, step s = .next { s with inputs := s.inputs.tail, cmd := s.cmd ++ held } ∧
      ((held = [] ∧ ∀ f rest, s.inputs ≠ .frame f :: rest) ∨ ∃ f rest, s.inputs = .frame f :: rest ∧ held = [f])

/-- The answer a waiting block was waiting for (42_compositor.md R166, R172, R174; 60_exceptions.md R228): a frame or a
fill ends with it; so does PUSHSLOW at a failed pixel or at the last; then CTL is IDLE, the response carries the answer,
and no grid, BRIGHT or FSR changes. An Ok answer to an earlier pixel issues the next pixel's request and takes the block
to WAIT_PIXEL(k+1); a further answer that is already there acts in the same step (log 6). -/
def Obligations.AnswerEndsTheWaitingCommand : Prop :=
  ∀ (s : State) (a : Answer) (rest : List Input), s.abandoned = false → s.inputs = .answer a :: rest →
    ((s.ctl = .waitFrame ∨ s.ctl = .waitFill ∨ (∃ k e, s.ctl = .waitPixel k ∧ a = .err e) ∨
        (∃ k, s.ctl = .waitPixel k ∧ s.cfg.cells ≤ k + 1)) →
      step s = .next { s with ctl := .idle, fb := none, inputs := rest, events := s.events ++
        [.response (statusBytes a)] }) ∧
    (∀ k u, s.ctl = .waitPixel k → k + 1 < s.cfg.cells → a = .ok →
      u = { s with ctl := .waitPixel (k + 1), inputs := rest, events := s.events ++ [.request (.writeSinglePixel
        (BitVec.ofNat 8 ((k + 1) / s.cfg.height)) (BitVec.ofNat 8 ((k + 1) % s.cfg.height))
        (scale (s.readCommit ((k + 1) / s.cfg.height) ((k + 1) % s.cfg.height)) s.bright))] } →
      ((∀ a' rest', rest ≠ .answer a' :: rest') → step s = .next u) ∧
      (∀ a' rest', rest = .answer a' :: rest' → step s = step u))

/-- The answer to a request that a RESET abandoned is discarded (10_state.md R40). The request that the command in progress
held back meanwhile, if there is one, is issued then (20_memory.md R65; that the command waited so is log 4's choice). At
a waiting block a further answer that is already there acts in the same step (log 6). -/
def Obligations.LateAnswerIsDiscarded : Prop :=
  ∀ (s u : State) (a : Answer) (rest : List Input), s.abandoned = true → s.inputs = .answer a :: rest →
    (s.ctl ≠ .idle ∨ s.cmd = []) →
    u = { s with
      abandoned := false, inputs := rest, events := s.events ++ s.currentRequest.toList.map .request } →
    ((∀ a' rest', rest ≠ .answer a' :: rest') → step s = .next u) ∧
    (s.awaiting = false → step s = .next u ∧ u.events = s.events) ∧
    (∀ a' rest', s.awaiting = true → rest = .answer a' :: rest' → step s = step u)

/-- Frames are not lost and not reordered (10_state.md R36): but for RESET, a step keeps the held frames, adds the one the
HOST offers behind them, or takes the oldest, and it takes one exactly when READY is asserted and one is held. -/
def Obligations.HeldFramesAreNotLostOrReordered : Prop :=
  ∀ s t : State, (∀ rest, s.inputs ≠ .reset :: rest) → step s = .next t →
    (s.ready = true ∧ ∃ f, s.cmd = f :: t.cmd) ∨
    ((s.ready = false ∨ s.cmd = []) ∧
      ((t.cmd = s.cmd ∧ ∀ f rest, s.inputs ≠ .frame f :: rest) ∨
        ∃ f rest, s.inputs = .frame f :: rest ∧ t.cmd = s.cmd ++ [f]))

/-- One response for every accepted frame that completes without a fault (10_state.md R37, R38): over a step without
RESET, responses sent, commands in progress and frames that faulted account for the frames accepted. -/
def Obligations.EveryAcceptedFrameIsAnsweredOnce : Prop :=
  ∀ s t : State, (∀ rest, s.inputs ≠ .reset :: rest) → step s = .next t →
    (responsesOf t.events).length + (if t.awaiting then 1 else 0) +
      (if s.ctl ≠ .faulted ∧ t.ctl = .faulted then 1 else 0) =
    (responsesOf s.events).length + (if s.awaiting then 1 else 0) +
      (if s.ctl = .idle ∧ s.cmd ≠ [] then 1 else 0)

/-- Every request gets exactly one answer, and requests go out one after another, at most one unanswered (10_state.md R42,
R43; 20_memory.md R65): over any step, what was owed before and the requests issued are the answers taken and what is
owed after. That one abandoned by RESET counts as unanswered, so that the next is held back, is log 4's reading. -/
def Obligations.RequestsAndAnswersBalance : Prop :=
  ∀ s t : State, s.Inv → step s = .next t →
    ∃ new taken, t.events = s.events ++ new ∧ s.inputs = taken ++ t.inputs ∧
      s.owed + (requestsOf new).length = (answersOf taken).length + t.owed ∧ t.owed ≤ 1

/-- No other abnormal outcome exists (60_exceptions.md R220): a step answers a next state, but for the model's own stop
when an answer comes that nobody owes (log 5). -/
def Obligations.StepStopsOnlyOnAnUnowedAnswer : Prop :=
  ∀ s : State, (∃ t, step s = .next t) ∨
    (step s = .fault .answerWithoutRequest ∧ s.awaiting = false ∧ s.abandoned = false ∧ (s.ctl ≠ .idle ∨ s.cmd = []) ∧
      ∃ a rest, s.inputs = .answer a :: rest)

/-! ## HOST generators (outside the block) -/

/-- gradient (45_host_generators.md R201, R202): min(255, DROP * (y + 1)) in every cell, so non-decreasing down the
grid. -/
def Obligations.GradientGrowsDownTheGrid : Prop :=
  ∀ (p : Params) (drop : Nat),
    (∀ x y, x < p.width → y < p.height → (gridCell p (gradientGrid p drop) x y).toNat = min 255 (drop * (y + 1))) ∧
    (∀ x y1 y2, x < p.width → y1 < y2 → y2 < p.height →
      (gridCell p (gradientGrid p drop) x y1).toNat ≤ (gridCell p (gradientGrid p drop) x y2).toNat)

/-- percentage (45_host_generators.md R204 to R206): exactly n full rows from the bottom, n the half-up rounding; all 0 at
0, all 255 at 100, no result above. -/
def Obligations.PercentageLightsRowsFromTheBottom : Prop :=
  ∀ (p : Params) (percent : Byte),
    (percent.toNat ≤ 100 → ∃ grid, percentage p percent = .ok grid ∧ grid.length = p.cells ∧
      (∀ x y, x < p.width → y < p.height → gridCell p grid x y =
        if p.height - (2 * p.height * percent.toNat + 100) / 200 ≤ y then 255 else 0) ∧
      (percent = 0 → ∀ v ∈ grid, v = 0) ∧ (percent = 100 → ∀ v ∈ grid, v = 255)) ∧
    (100 < percent.toNat → percentage p percent = .error .percentageAbove100)

/-- every_nth (45_host_generators.md R208): the columns that n divides; every cell for n = 1, column 0 alone for
n > WIDTH - 1; no result for n = 0. -/
def Obligations.EveryNthLightsItsColumns : Prop :=
  ∀ (p : Params) (n : Nat),
    (1 ≤ n → ∃ grid, everyNth p n = .ok grid ∧ grid.length = p.cells ∧
      (∀ x y, x < p.width → y < p.height → gridCell p grid x y = if x % n = 0 then 255 else 0) ∧
      (n = 1 → ∀ v ∈ grid, v = 255) ∧
      (p.width - 1 < n → ∀ x y, x < p.width → y < p.height → (gridCell p grid x y = 255 ↔ x = 0))) ∧
    everyNth p 0 = .error .zeroModulus
end

