-- ==== Sys2Proof/Laws/Decode.lean ====
section
/-! SUPPORT. The laws of the opcode map and of the operand readers. -/

namespace Sys2Proof

/-- No two opcodes share a byte (30_encoding.md R83). -/
theorem Opcode.ofByte_byte (o : Opcode) : Opcode.ofByte o.byte = some o := by cases o <;> decide

theorem Opcode.byte_of_ofByte {b : Byte} {o : Opcode} (h : Opcode.ofByte b = some o) : o.byte = b := by
  have := List.find?_some h
  simpa using this

/-- The operands of a well-formed command fill its format (R81). -/
theorem Instr.operands_length {p : Params} {i : Instr} (h : i.wf p = true) :
    i.operands.length + 1 = i.opcode.length p := by
  cases i <;>
    simp_all [Instr.wf, Instr.operands, Instr.opcode, Opcode.length, Opcode.format, Format.length, glyphN, Nat.add_comm]

theorem readOperands_operands (i : Instr) : readOperands i.opcode i.operands = some i := by cases i <;> rfl

/-- What the operand readers read, the encoder writes. -/
theorem operands_of_readOperands {o : Opcode} {l : List Byte} {i : Instr} (h : readOperands o l = some i) :
    i.opcode = o ∧ i.operands = l := by
  cases o <;> rcases l with _ | ⟨a, _ | ⟨b, _ | ⟨c, _ | ⟨d, l⟩⟩⟩⟩ <;>
    first
    | (cases h; done)
    | (cases h; exact ⟨rfl, rfl⟩)

/-- A byte string of the format's length always reads (R82: every operand byte is legal). -/
theorem readOperands_isSome {p : Params} {o : Opcode} {l : List Byte} (h : l.length + 1 = o.length p) :
    (readOperands o l).isSome = true := by
  cases o <;> simp only [Opcode.length, Opcode.format, Format.length] at h
  case loadgrid => rfl
  case loadpk => rfl
  case glyph => cases l with
    | nil => simp at h
    | cons _ _ => rfl
  all_goals
    first
    | (obtain rfl : l = [] := List.length_eq_zero_iff.1 (by omega); rfl)
    | (obtain ⟨a, rfl⟩ := List.length_eq_one_iff.1 (show l.length = 1 by omega); rfl)
    | (obtain ⟨a, b, rfl⟩ := List.length_eq_two.1 (show l.length = 2 by omega); rfl)
    | (obtain ⟨a, b, c, rfl⟩ := List.length_eq_three.1 (show l.length = 3 by omega); rfl)

/-- The decoder's answer on a frame with a defined opcode and its length. -/
theorem decode_of_operands {p : Params} {o : Opcode} {l : List Byte} {i : Instr} (hl : l.length + 1 = o.length p)
    (hr : readOperands o l = some i) : decode p (o.byte :: l) = .ok i := by
  simp [decode, Opcode.ofByte_byte, hl, hr]

/-- The decoder's answer on a frame with a defined opcode and another length (R86). -/
theorem decode_of_length {p : Params} {o : Opcode} {l : List Byte} (hl : l.length + 1 ≠ o.length p) :
    decode p (o.byte :: l) = .error ⟨.length, o.byte⟩ := by
  simp [decode, Opcode.ofByte_byte, hl]

/-- The decoder's answer on a reserved opcode, whatever follows (R84, 60_exceptions.md R224). -/
theorem decode_of_reserved {p : Params} {b : Byte} (l : List Byte) (h : Opcode.ofByte b = none) :
    decode p (b :: l) = .error ⟨.illegalOpcode, b⟩ := by
  simp [decode, h]

/-- A byte is reserved when no defined opcode has it (R84). -/
theorem Opcode.ofByte_eq_none {b : Byte} : Opcode.ofByte b = none ↔ ∀ o : Opcode, o.byte ≠ b := by
  constructor
  · intro h o ho
    rw [← ho, Opcode.ofByte_byte] at h
    simp at h
  · intro h
    cases hb : Opcode.ofByte b with
    | none => rfl
    | some o => exact absurd (Opcode.byte_of_ofByte hb) (h o)

end Sys2Proof
end

