-- ==== Sys2Proof/Laws/Memory.lean ====
section
/-! SUPPORT. The laws of cell spaces and buffers: what a read gives after a write, and that every write keeps the
canonical form and the bounds. -/

namespace Sys2Proof.Machine

variable {m m' : Memory} {a b n : Nat} {v : Byte} {writes : List (Nat × Byte)}

@[simp] theorem Memory.read_nil (a : Nat) : Memory.read [] a = 0 := rfl

@[simp] theorem Memory.read_cons (b : Nat) (w : Byte) (m : Memory) (a : Nat) :
    Memory.read ((b, w) :: m) a = if a = b then w else m.read a := rfl

theorem Memory.wf_nil : Memory.wf [] := by simp [Memory.wf]

theorem Memory.wf_cons {b : Nat} {w : Byte} :
    Memory.wf ((b, w) :: m) ↔ (∀ c ∈ m, b < c.1) ∧ w ≠ 0 ∧ m.wf := by
  simp only [Memory.wf, List.pairwise_cons, List.forall_mem_cons]
  tauto

/-- Below the first listed address everything reads 0. -/
theorem Memory.read_of_lt (h : ∀ c ∈ m, a < c.1) : m.read a = 0 := by
  induction m with
  | nil => rfl
  | cons c m ih =>
    obtain ⟨b, w⟩ := c
    have hb := h (b, w) (by simp)
    rw [Memory.read_cons, if_neg (by simp only at hb; omega)]
    exact ih fun c hc => h c (by simp [hc])

/-- A write leaves every other address alone. -/
theorem Memory.read_write_other (h : b ≠ a) : (m.write a v).read b = m.read b := by
  induction m with
  | nil => simp only [Memory.write]; split <;> simp [h]
  | cons c m ih =>
    obtain ⟨k, w⟩ := c
    simp only [Memory.write]
    split
    · split <;> simp [h]
    · split
      · next hk => subst hk; split <;> simp [h]
      · simp [ih]

/-- A read after a write to the same address gives the value written. -/
theorem Memory.read_write_same (hm : m.wf) : (m.write a v).read a = v := by
  induction m with
  | nil => simp only [Memory.write]; split <;> simp_all
  | cons c m ih =>
    obtain ⟨k, w⟩ := c
    obtain ⟨hlt, hw, hm'⟩ := Memory.wf_cons.1 hm
    simp only [Memory.write]
    split
    · next hak =>
      split
      · next hv =>
        rw [hv]
        refine Memory.read_of_lt fun c hc => ?_
        rcases List.mem_cons.1 hc with rfl | hc
        · exact hak
        · exact lt_trans hak (hlt c hc)
      · simp
    · split
      · next hk =>
        subst hk
        split
        · next hv => rw [hv]; exact Memory.read_of_lt hlt
        · simp
      · next hk => simp [hk, ih hm']

theorem Memory.mem_write {c : Host.Cell} (h : c ∈ m.write a v) : c ∈ m ∨ (c = (a, v) ∧ v ≠ 0) := by
  induction m with
  | nil => simp only [Memory.write] at h; split at h <;> simp_all
  | cons d m ih =>
    obtain ⟨k, w⟩ := d
    simp only [Memory.write] at h
    split at h
    · split at h <;> simp_all; tauto
    · split at h
      · split at h <;> simp_all; tauto
      · rcases List.mem_cons.1 h with rfl | h
        · exact .inl (by simp)
        · rcases ih h with h | h
          · exact .inl (by simp [h])
          · exact .inr h

/-- A write keeps the canonical form. -/
theorem Memory.wf_write (hm : m.wf) : (m.write a v).wf := by
  induction m with
  | nil => simp only [Memory.write]; split <;> simp_all [Memory.wf]
  | cons c m ih =>
    obtain ⟨k, w⟩ := c
    obtain ⟨hlt, hw, hm'⟩ := Memory.wf_cons.1 hm
    simp only [Memory.write]
    split
    · next hak =>
      split
      · exact hm
      · next hv =>
        refine Memory.wf_cons.2 ⟨fun c hc => ?_, hv, hm⟩
        rcases List.mem_cons.1 hc with rfl | hc
        · exact hak
        · exact lt_trans hak (hlt c hc)
    · next hak =>
      split
      · next hk =>
        subst hk
        split
        · exact hm'
        · next hv => exact Memory.wf_cons.2 ⟨hlt, hv, hm'⟩
      · next hk =>
        refine Memory.wf_cons.2 ⟨fun c hc => ?_, hw, ih hm'⟩
        rcases Memory.mem_write hc with hc | ⟨rfl, -⟩
        · exact hlt c hc
        · simp only; omega

theorem Memory.within_write (hm : m.within n) (ha : a < n) : (m.write a v).within n := by
  intro c hc
  rcases Memory.mem_write hc with hc | ⟨rfl, -⟩
  · exact hm c hc
  · exact ha

/-- Beyond the bound everything reads 0. -/
theorem Memory.read_of_within (hm : m.within n) (ha : n ≤ a) : m.read a = 0 := by
  induction m with
  | nil => rfl
  | cons c m ih =>
    obtain ⟨b, w⟩ := c
    have hb : b < n := hm (b, w) (by simp)
    rw [Memory.read_cons, if_neg (by omega)]
    exact ih fun c hc => hm c (by simp [hc])

/-! ## Several writes -/

@[simp] theorem Memory.writeAll_nil (m : Memory) : m.writeAll [] = m := rfl

@[simp] theorem Memory.writeAll_cons (m : Memory) (c : Nat × Byte) (writes : List (Nat × Byte)) :
    m.writeAll (c :: writes) = (m.write c.1 c.2).writeAll writes := rfl

theorem Memory.wf_writeAll (hm : m.wf) : (m.writeAll writes).wf := by
  induction writes generalizing m with
  | nil => exact hm
  | cons c writes ih => exact ih (Memory.wf_write hm)

theorem Memory.within_writeAll (hm : m.within n) (h : ∀ c ∈ writes, c.1 < n) : (m.writeAll writes).within n := by
  induction writes generalizing m with
  | nil => exact hm
  | cons c writes ih =>
    exact ih (Memory.within_write hm (h c (by simp))) fun d hd => h d (by simp [hd])

/-- Several writes leave every address they do not name alone. -/
theorem Memory.read_writeAll_other (h : ∀ c ∈ writes, c.1 ≠ a) : (m.writeAll writes).read a = m.read a := by
  induction writes generalizing m with
  | nil => rfl
  | cons c writes ih =>
    rw [Memory.writeAll_cons, ih fun d hd => h d (by simp [hd])]
    exact Memory.read_write_other (Ne.symm (h c (by simp)))

/-- If the writes name an address, always with the value `v`, it reads `v` afterwards: their order is unobservable. -/
theorem Memory.read_writeAll_agree (hm : m.wf) (hmem : (a, v) ∈ writes) (h : ∀ c ∈ writes, c.1 = a → c.2 = v) :
    (m.writeAll writes).read a = v := by
  induction writes generalizing m with
  | nil => simp at hmem
  | cons c writes ih =>
    rw [Memory.writeAll_cons]
    by_cases hin : (a, v) ∈ writes
    · exact ih (Memory.wf_write hm) hin fun d hd => h d (by simp [hd])
    · have hc : c = (a, v) := by simpa [hin, eq_comm] using hmem
      subst hc
      rw [Memory.read_writeAll_other, Memory.read_write_same hm]
      intro d hd hda
      exact hin (by rw [← hda, ← h d (by simp [hd]) hda]; exact hd)

/-- Canonical memories that read alike everywhere are equal. -/
theorem Memory.ext_read (hm : m.wf) (hm' : m'.wf) (h : ∀ a, m.read a = m'.read a) : m = m' := by
  induction m generalizing m' with
  | nil =>
    cases m' with
    | nil => rfl
    | cons c m' =>
      obtain ⟨b, w⟩ := c
      have := h b
      simp only [Memory.read_nil, Memory.read_cons, if_true] at this
      exact absurd this.symm (Memory.wf_cons.1 hm').2.1
  | cons c m ih =>
    obtain ⟨k, w⟩ := c
    obtain ⟨hlt, hw, hmm⟩ := Memory.wf_cons.1 hm
    cases m' with
    | nil =>
      have := h k
      simp only [Memory.read_nil, Memory.read_cons, if_true] at this
      exact absurd this hw
    | cons c' m' =>
      obtain ⟨k', w'⟩ := c'
      obtain ⟨hlt', hw', hmm'⟩ := Memory.wf_cons.1 hm'
      have hkk : k = k' := by
        rcases lt_trichotomy k k' with hk | hk | hk
        · have h1 : Memory.read ((k', w') :: m') k = 0 := Memory.read_of_lt fun c hc => by
            rcases List.mem_cons.1 hc with rfl | hc
            · exact hk
            · exact lt_trans hk (hlt' c hc)
          have h2 := h k
          rw [h1, Memory.read_cons, if_pos rfl] at h2
          exact absurd h2 hw
        · exact hk
        · have h1 : Memory.read ((k, w) :: m) k' = 0 := Memory.read_of_lt fun c hc => by
            rcases List.mem_cons.1 hc with rfl | hc
            · exact hk
            · exact lt_trans hk (hlt c hc)
          have h2 := h k'
          rw [h1, Memory.read_cons, if_pos rfl] at h2
          exact absurd h2.symm hw'
      subst hkk
      have hww : w = w' := by simpa using h k
      subst hww
      congr 1
      refine ih hmm hmm' fun a => ?_
      by_cases hak : a = k
      · subst hak
        rw [Memory.read_of_lt hlt, Memory.read_of_lt hlt']
      · simpa [hak] using h a

/-- A write list that gives each address one value: the order of its writes is unobservable, and what it names does not
depend on what was there before. -/
theorem Memory.writeAll_perm {writes' : List (Nat × Byte)} (hm : m.wf) (hm' : m'.wf)
    (hf : ∀ c ∈ writes, ∀ d ∈ writes, c.1 = d.1 → c.2 = d.2) (hp : writes'.Perm writes)
    (hout : ∀ k, (∀ c ∈ writes, c.1 ≠ k) → m.read k = m'.read k) : m.writeAll writes' = m'.writeAll writes := by
  refine Memory.ext_read (Memory.wf_writeAll hm) (Memory.wf_writeAll hm') fun k => ?_
  by_cases h : ∃ c ∈ writes, c.1 = k
  · obtain ⟨c, hc, rfl⟩ := h
    rw [Memory.read_writeAll_agree hm (v := c.2) (hp.mem_iff.2 hc) fun d hd he => hf d (hp.mem_iff.1 hd) c hc he,
      Memory.read_writeAll_agree hm' (v := c.2) hc fun d hd he => hf d hd c hc he]
  · have h : ∀ c ∈ writes, c.1 ≠ k := fun c hc he => h ⟨c, hc, he⟩
    rw [Memory.read_writeAll_other (fun c hc => h c (hp.mem_iff.1 hc)), Memory.read_writeAll_other h]
    exact hout k h

/-- Such a list written twice is written once. -/
theorem Memory.writeAll_idem (hm : m.wf) (hf : ∀ c ∈ writes, ∀ d ∈ writes, c.1 = d.1 → c.2 = d.2) :
    (m.writeAll writes).writeAll writes = m.writeAll writes :=
  Memory.writeAll_perm (Memory.wf_writeAll hm) hm hf (List.Perm.refl _) fun _ hk => Memory.read_writeAll_other hk

/-- After several writes a byte is one that was written there, or what it was. -/
theorem Memory.read_writeAll_cases (hm : m.wf) (a : Nat) :
    (∃ c ∈ writes, c.1 = a ∧ (m.writeAll writes).read a = c.2) ∨ (m.writeAll writes).read a = m.read a := by
  induction writes generalizing m with
  | nil => exact .inr rfl
  | cons c writes ih =>
    rcases ih (m := m.write c.1 c.2) (Memory.wf_write hm) with ⟨d, hd, ha, h⟩ | h
    · exact .inl ⟨d, by simp [hd], ha, h⟩
    · by_cases ha : a = c.1
      · subst ha
        exact .inl ⟨c, by simp, rfl, h.trans (Memory.read_write_same hm)⟩
      · exact .inr (h.trans (Memory.read_write_other ha))

end Sys2Proof.Machine
end

