-- ==== Sys2Proof/Laws/Operands.lean ====
section
/-! SUPPORT. The laws of addresses: the linear index names each cell once, the grid loops visit each cell once, the
mirror is its own inverse, and the mapper gives each cell its own byte of the flat buffer. -/

namespace Sys2Proof.Machine

variable {p : Params} {x y x' y' n v : Nat}

theorem cellIndex_lt (hx : x < p.width) (hy : y < p.height) : cellIndex p x y < p.cells := by
  have : p.width * (y + 1) ≤ p.width * p.height := Nat.mul_le_mul_left _ hy
  simp only [cellIndex, Params.cells]
  rw [Nat.mul_add] at this
  omega

theorem cellIndex_mod (hx : x < p.width) : cellIndex p x y % p.width = x := by
  simp [cellIndex, Nat.add_mul_mod_self_left, Nat.mod_eq_of_lt hx]

theorem cellIndex_div (hx : x < p.width) : cellIndex p x y / p.width = y := by
  rw [cellIndex, Nat.add_mul_div_left _ _ (by omega), Nat.div_eq_of_lt hx, Nat.zero_add]

/-- Two cells with one linear index are one cell (20_memory.md R51). -/
theorem cellIndex_inj (hx : x < p.width) (hx' : x' < p.width) (h : cellIndex p x y = cellIndex p x' y') :
    x = x' ∧ y = y' := by
  refine ⟨?_, ?_⟩
  · rw [← cellIndex_mod (y := y) hx, h, cellIndex_mod hx']
  · rw [← cellIndex_div (y := y) hx, h, cellIndex_div hx']

/-- Every linear index below CELLS is the index of the cell (L mod WIDTH, L div WIDTH) (R51). -/
theorem cellIndex_mod_div (l : Nat) : cellIndex p (l % p.width) (l / p.width) = l := by
  simp [cellIndex, Nat.mod_add_div]

theorem mod_lt_width (h : n < p.cells) : n % p.width < p.width :=
  Nat.mod_lt _ (Nat.pos_of_ne_zero fun h0 => by simp [Params.cells, h0] at h)

theorem div_lt_height (h : n < p.cells) : n / p.width < p.height :=
  Nat.div_lt_of_lt_mul h

theorem mirror_lt (h : v < n) : mirror n v < n := by simp only [mirror]; omega

/-- The mirror is its own inverse (00_scope.md R11). -/
theorem mirror_mirror (h : v < n) : mirror n (mirror n v) = v := by simp only [mirror]; omega

theorem mem_gridByColumns : (x, y) ∈ gridByColumns p ↔ x < p.width ∧ y < p.height := by
  simp [gridByColumns]

theorem mem_gridByRows : (x, y) ∈ gridByRows p ↔ x < p.width ∧ y < p.height := by
  simp [gridByRows, and_comm]

theorem inGrid_iff {x y : Byte} : inGrid p x y = true ↔ x.toNat < p.width ∧ y.toNat < p.height := by
  simp [inGrid]

theorem glyphFits_iff {off : Byte} : glyphFits p off = true ↔ off.toNat + 8 ≤ p.height := by
  rw [glyphFits, decide_eq_true_iff]; rfl

theorem level_eq_zero_or (b : Bool) : level b = 0 ∨ level b = 255 := by cases b <;> simp [level]

theorem level_inj {b c : Bool} : level b = level c ↔ b = c := by cases b <;> cases c <;> simp [level]

/-! ## The mapper -/

/-- A configuration's table entry for a cell of the grid. -/
theorem mapCell_mem (cfg : Config) (hx : x < cfg.width) (hy : y < cfg.height) :
    ∃ h : cellIndex cfg.toParams x y < cfg.map.length,
      mapCell cfg.toParams x y = cfg.map[cellIndex cfg.toParams x y] := by
  have hlen : cfg.map.length = cfg.width * cfg.height := cfg.ok.2.2.2.2.2.1
  have hlt : cellIndex cfg.toParams x y < cfg.map.length := by rw [hlen]; exact cellIndex_lt hx hy
  exact ⟨hlt, by simp [mapCell, hlt]⟩

/-- Every cell's flat index lies inside the flat buffer (42_compositor.md R161). -/
theorem flat_lt (cfg : Config) (hx : x < cfg.width) (hy : y < cfg.height) :
    flat cfg.toParams x y < cfg.bufLen := by
  obtain ⟨hlt, heq⟩ := mapCell_mem cfg hx hy
  have := cfg.ok.2.2.2.2.2.2.1 _ (List.getElem_mem hlt)
  simp only [flat, heq]
  omega

/-- No two cells share a flat index (42_compositor.md R161, 00_scope.md R8 (b)). -/
theorem flat_inj (cfg : Config) (hx : x < cfg.width) (hy : y < cfg.height) (hx' : x' < cfg.width)
    (hy' : y' < cfg.height) (h : flat cfg.toParams x y = flat cfg.toParams x' y') : x = x' ∧ y = y' := by
  obtain ⟨hlt, heq⟩ := mapCell_mem cfg hx hy
  obtain ⟨hlt', heq'⟩ := mapCell_mem cfg hx' hy'
  have hr := (cfg.ok.2.2.2.2.2.2.1 _ (List.getElem_mem hlt)).2.1
  have hr' := (cfg.ok.2.2.2.2.2.2.1 _ (List.getElem_mem hlt')).2.1
  have hnd : cfg.map.Nodup := cfg.ok.2.2.2.2.2.2.2
  simp only [flat, heq, heq'] at h
  generalize he : cfg.map[cellIndex cfg.toParams x y] = e at *
  generalize he' : cfg.map[cellIndex cfg.toParams x' y'] = e' at *
  have hpos : 0 < cfg.pageSize := by omega
  have h1 : e.1 = e'.1 := by
    have := congrArg (· % cfg.pageSize) h
    simpa [Nat.mul_add_mod_self_right, Nat.mod_eq_of_lt hr, Nat.mod_eq_of_lt hr'] using this
  have h2 : e.2 = e'.2 := by
    rw [h1] at h
    exact Nat.eq_of_mul_eq_mul_right hpos (by omega)
  have : cellIndex cfg.toParams x y = cellIndex cfg.toParams x' y' :=
    (List.Nodup.getElem_inj_iff hnd).1 (by rw [he, he']; exact Prod.ext h1 h2)
  exact cellIndex_inj hx hx' this

/-! ## The grid loops and the packed bits -/

theorem gridByRows_nodup (p : Params) : (gridByRows p).Nodup := by
  unfold gridByRows
  rw [List.nodup_flatMap]
  refine ⟨fun y _ => List.Nodup.map (fun a b h => by simpa using h) List.nodup_range, ?_⟩
  refine List.nodup_range.imp fun {a b} hab => ?_
  simp only [Function.onFun, List.disjoint_left]
  intro c hc hc'
  simp only [List.mem_map] at hc hc'
  obtain ⟨_, _, rfl⟩ := hc
  obtain ⟨_, _, h⟩ := hc'
  exact hab (by simpa using (Prod.ext_iff.1 h).2.symm)

/-- The byte of a cell's bit lies inside the packed frame (20_memory.md R52). -/
theorem packedByte_lt (hx : x < p.width) (hy : y < p.height) : (x + p.width * y) / 8 < p.pkLen := by
  have := cellIndex_lt hx hy
  simp only [cellIndex] at this
  simp only [Params.pkLen]
  omega

theorem packedBit_eq {pk : List Byte} {i : Nat} (h : i / 8 < pk.length) :
    ∃ byte, pk[i / 8]? = some byte ∧ packedBit pk i = byte.getLsbD (i % 8) :=
  ⟨pk[i / 8], by simp [h], by simp [packedBit, h]⟩

end Sys2Proof.Machine
end

