-- ==== Sys2Proof/Laws/State.lean ====
section
/-! SUPPORT. One lemma per field and operation of the state: what each shared operation does to each field, so that no
later proof unfolds a record update. -/

namespace Sys2Proof.Machine

variable (s : State)

@[simp] theorem State.writeWork_cfg (w : List (Nat × Byte)) : (s.writeWork w).cfg = s.cfg := rfl
@[simp] theorem State.writeWork_work (w : List (Nat × Byte)) : (s.writeWork w).work = s.work.writeAll w := rfl
@[simp] theorem State.writeWork_commit (w : List (Nat × Byte)) : (s.writeWork w).commit = s.commit := rfl
@[simp] theorem State.writeWork_bright (w : List (Nat × Byte)) : (s.writeWork w).bright = s.bright := rfl
@[simp] theorem State.writeWork_fsr (w : List (Nat × Byte)) : (s.writeWork w).fsr = s.fsr := rfl
@[simp] theorem State.writeWork_ctl (w : List (Nat × Byte)) : (s.writeWork w).ctl = s.ctl := rfl
@[simp] theorem State.writeWork_fb (w : List (Nat × Byte)) : (s.writeWork w).fb = s.fb := rfl
@[simp] theorem State.writeWork_cmd (w : List (Nat × Byte)) : (s.writeWork w).cmd = s.cmd := rfl
@[simp] theorem State.writeWork_abandoned (w : List (Nat × Byte)) : (s.writeWork w).abandoned = s.abandoned := rfl
@[simp] theorem State.writeWork_events (w : List (Nat × Byte)) : (s.writeWork w).events = s.events := rfl
@[simp] theorem State.writeWork_inputs (w : List (Nat × Byte)) : (s.writeWork w).inputs = s.inputs := rfl

@[simp] theorem State.writeCommit_cfg (w : List (Nat × Byte)) : (s.writeCommit w).cfg = s.cfg := rfl
@[simp] theorem State.writeCommit_work (w : List (Nat × Byte)) : (s.writeCommit w).work = s.work := rfl
@[simp] theorem State.writeCommit_commit (w : List (Nat × Byte)) : (s.writeCommit w).commit = s.commit.writeAll w := rfl
@[simp] theorem State.writeCommit_bright (w : List (Nat × Byte)) : (s.writeCommit w).bright = s.bright := rfl
@[simp] theorem State.writeCommit_fsr (w : List (Nat × Byte)) : (s.writeCommit w).fsr = s.fsr := rfl
@[simp] theorem State.writeCommit_ctl (w : List (Nat × Byte)) : (s.writeCommit w).ctl = s.ctl := rfl
@[simp] theorem State.writeCommit_fb (w : List (Nat × Byte)) : (s.writeCommit w).fb = s.fb := rfl
@[simp] theorem State.writeCommit_cmd (w : List (Nat × Byte)) : (s.writeCommit w).cmd = s.cmd := rfl
@[simp] theorem State.writeCommit_abandoned (w : List (Nat × Byte)) : (s.writeCommit w).abandoned = s.abandoned := rfl
@[simp] theorem State.writeCommit_events (w : List (Nat × Byte)) : (s.writeCommit w).events = s.events := rfl
@[simp] theorem State.writeCommit_inputs (w : List (Nat × Byte)) : (s.writeCommit w).inputs = s.inputs := rfl

@[simp] theorem State.respond_cfg (b : Frame) : (s.respond b).cfg = s.cfg := rfl
@[simp] theorem State.respond_work (b : Frame) : (s.respond b).work = s.work := rfl
@[simp] theorem State.respond_commit (b : Frame) : (s.respond b).commit = s.commit := rfl
@[simp] theorem State.respond_bright (b : Frame) : (s.respond b).bright = s.bright := rfl
@[simp] theorem State.respond_fsr (b : Frame) : (s.respond b).fsr = s.fsr := rfl
@[simp] theorem State.respond_ctl (b : Frame) : (s.respond b).ctl = s.ctl := rfl
@[simp] theorem State.respond_fb (b : Frame) : (s.respond b).fb = s.fb := rfl
@[simp] theorem State.respond_cmd (b : Frame) : (s.respond b).cmd = s.cmd := rfl
@[simp] theorem State.respond_abandoned (b : Frame) : (s.respond b).abandoned = s.abandoned := rfl
@[simp] theorem State.respond_events (b : Frame) : (s.respond b).events = s.events ++ [.response b] := rfl
@[simp] theorem State.respond_inputs (b : Frame) : (s.respond b).inputs = s.inputs := rfl

@[simp] theorem State.issue_cfg (c : Ctl) (r : Request) : (s.issue c r).cfg = s.cfg := rfl
@[simp] theorem State.issue_work (c : Ctl) (r : Request) : (s.issue c r).work = s.work := rfl
@[simp] theorem State.issue_commit (c : Ctl) (r : Request) : (s.issue c r).commit = s.commit := rfl
@[simp] theorem State.issue_bright (c : Ctl) (r : Request) : (s.issue c r).bright = s.bright := rfl
@[simp] theorem State.issue_fsr (c : Ctl) (r : Request) : (s.issue c r).fsr = s.fsr := rfl
@[simp] theorem State.issue_ctl (c : Ctl) (r : Request) : (s.issue c r).ctl = c := rfl
@[simp] theorem State.issue_fb (c : Ctl) (r : Request) : (s.issue c r).fb = s.fb := rfl
@[simp] theorem State.issue_cmd (c : Ctl) (r : Request) : (s.issue c r).cmd = s.cmd := rfl
@[simp] theorem State.issue_abandoned (c : Ctl) (r : Request) : (s.issue c r).abandoned = s.abandoned := rfl
@[simp] theorem State.issue_events (c : Ctl) (r : Request) :
    (s.issue c r).events = if s.abandoned then s.events else s.events ++ [.request r] := rfl
@[simp] theorem State.issue_inputs (c : Ctl) (r : Request) : (s.issue c r).inputs = s.inputs := rfl

@[simp] theorem State.raiseFault_cfg (c : Cause) (o : Byte) : (s.raiseFault c o).cfg = s.cfg := rfl
@[simp] theorem State.raiseFault_work (c : Cause) (o : Byte) : (s.raiseFault c o).work = s.work := rfl
@[simp] theorem State.raiseFault_commit (c : Cause) (o : Byte) : (s.raiseFault c o).commit = s.commit := rfl
@[simp] theorem State.raiseFault_bright (c : Cause) (o : Byte) : (s.raiseFault c o).bright = s.bright := rfl
@[simp] theorem State.raiseFault_fsr (c : Cause) (o : Byte) : (s.raiseFault c o).fsr = fsrWord (causeCode c) o := rfl
@[simp] theorem State.raiseFault_ctl (c : Cause) (o : Byte) : (s.raiseFault c o).ctl = .faulted := rfl
@[simp] theorem State.raiseFault_fb (c : Cause) (o : Byte) : (s.raiseFault c o).fb = s.fb := rfl
@[simp] theorem State.raiseFault_cmd (c : Cause) (o : Byte) : (s.raiseFault c o).cmd = s.cmd := rfl
@[simp] theorem State.raiseFault_abandoned (c : Cause) (o : Byte) : (s.raiseFault c o).abandoned = s.abandoned := rfl
@[simp] theorem State.raiseFault_events (c : Cause) (o : Byte) : (s.raiseFault c o).events = s.events := rfl
@[simp] theorem State.raiseFault_inputs (c : Cause) (o : Byte) : (s.raiseFault c o).inputs = s.inputs := rfl

@[simp] theorem State.issuePixel_cfg (k : Nat) : (s.issuePixel k).cfg = s.cfg := rfl
@[simp] theorem State.issuePixel_work (k : Nat) : (s.issuePixel k).work = s.work := rfl
@[simp] theorem State.issuePixel_commit (k : Nat) : (s.issuePixel k).commit = s.commit := rfl
@[simp] theorem State.issuePixel_bright (k : Nat) : (s.issuePixel k).bright = s.bright := rfl
@[simp] theorem State.issuePixel_fsr (k : Nat) : (s.issuePixel k).fsr = s.fsr := rfl
@[simp] theorem State.issuePixel_ctl (k : Nat) : (s.issuePixel k).ctl = .waitPixel k := rfl
@[simp] theorem State.issuePixel_fb (k : Nat) : (s.issuePixel k).fb = s.fb := rfl
@[simp] theorem State.issuePixel_cmd (k : Nat) : (s.issuePixel k).cmd = s.cmd := rfl
@[simp] theorem State.issuePixel_abandoned (k : Nat) : (s.issuePixel k).abandoned = s.abandoned := rfl
@[simp] theorem State.issuePixel_events (k : Nat) :
    (s.issuePixel k).events = if s.abandoned then s.events else s.events ++ [.request (s.pixelRequest k)] := rfl
@[simp] theorem State.issuePixel_inputs (k : Nat) : (s.issuePixel k).inputs = s.inputs := rfl

@[simp] theorem State.finish_cfg (a : Answer) : (s.finish a).cfg = s.cfg := rfl
@[simp] theorem State.finish_work (a : Answer) : (s.finish a).work = s.work := rfl
@[simp] theorem State.finish_commit (a : Answer) : (s.finish a).commit = s.commit := rfl
@[simp] theorem State.finish_bright (a : Answer) : (s.finish a).bright = s.bright := rfl
@[simp] theorem State.finish_fsr (a : Answer) : (s.finish a).fsr = s.fsr := rfl
@[simp] theorem State.finish_ctl (a : Answer) : (s.finish a).ctl = .idle := rfl
@[simp] theorem State.finish_fb (a : Answer) : (s.finish a).fb = none := rfl
@[simp] theorem State.finish_cmd (a : Answer) : (s.finish a).cmd = s.cmd := rfl
@[simp] theorem State.finish_abandoned (a : Answer) : (s.finish a).abandoned = s.abandoned := rfl
@[simp] theorem State.finish_events (a : Answer) : (s.finish a).events = s.events ++ [.response (answerResponse a)] := rfl
@[simp] theorem State.finish_inputs (a : Answer) : (s.finish a).inputs = s.inputs := rfl

@[simp] theorem State.release_cfg : s.release.cfg = s.cfg := rfl
@[simp] theorem State.release_work : s.release.work = s.work := rfl
@[simp] theorem State.release_commit : s.release.commit = s.commit := rfl
@[simp] theorem State.release_bright : s.release.bright = s.bright := rfl
@[simp] theorem State.release_fsr : s.release.fsr = s.fsr := rfl
@[simp] theorem State.release_ctl : s.release.ctl = s.ctl := rfl
@[simp] theorem State.release_fb : s.release.fb = s.fb := rfl
@[simp] theorem State.release_cmd : s.release.cmd = s.cmd := rfl
@[simp] theorem State.release_inputs : s.release.inputs = s.inputs := rfl
@[simp] theorem State.release_abandoned : s.release.abandoned = false := rfl
@[simp] theorem State.release_events :
    s.release.events = s.events ++ s.currentRequest.toList.map .request := rfl
@[simp] theorem State.awaiting_release : s.release.awaiting = s.awaiting := rfl

@[simp] theorem State.assertReset_cfg : s.assertReset.cfg = s.cfg := rfl
@[simp] theorem State.assertReset_work : s.assertReset.work = [] := rfl
@[simp] theorem State.assertReset_commit : s.assertReset.commit = [] := rfl
@[simp] theorem State.assertReset_bright : s.assertReset.bright = s.cfg.brightReset := rfl
@[simp] theorem State.assertReset_fsr : s.assertReset.fsr = 0 := rfl
@[simp] theorem State.assertReset_ctl : s.assertReset.ctl = .idle := rfl
@[simp] theorem State.assertReset_fb : s.assertReset.fb = none := rfl
@[simp] theorem State.assertReset_cmd : s.assertReset.cmd = [] := rfl
@[simp] theorem State.assertReset_abandoned : s.assertReset.abandoned = (s.abandoned || s.awaiting) := rfl
@[simp] theorem State.assertReset_events : s.assertReset.events = s.events := rfl
@[simp] theorem State.assertReset_inputs : s.assertReset.inputs = s.inputs := rfl

@[simp] theorem State.resetOf_cfg (cfg : Config) : (State.resetOf cfg).cfg = cfg := rfl
@[simp] theorem State.resetOf_work (cfg : Config) : (State.resetOf cfg).work = [] := rfl
@[simp] theorem State.resetOf_commit (cfg : Config) : (State.resetOf cfg).commit = [] := rfl
@[simp] theorem State.resetOf_bright (cfg : Config) : (State.resetOf cfg).bright = cfg.brightReset := rfl
@[simp] theorem State.resetOf_fsr (cfg : Config) : (State.resetOf cfg).fsr = 0 := rfl
@[simp] theorem State.resetOf_ctl (cfg : Config) : (State.resetOf cfg).ctl = .idle := rfl
@[simp] theorem State.resetOf_fb (cfg : Config) : (State.resetOf cfg).fb = none := rfl
@[simp] theorem State.resetOf_cmd (cfg : Config) : (State.resetOf cfg).cmd = [] := rfl
@[simp] theorem State.resetOf_abandoned (cfg : Config) : (State.resetOf cfg).abandoned = false := rfl
@[simp] theorem State.resetOf_events (cfg : Config) : (State.resetOf cfg).events = [] := rfl
@[simp] theorem State.resetOf_inputs (cfg : Config) : (State.resetOf cfg).inputs = [] := rfl

/-- A command in progress waits in a WAIT state (10_state.md R27). -/
theorem State.awaiting_iff :
    s.awaiting = true ↔ s.ctl = .waitFrame ∨ s.ctl = .waitFill ∨ ∃ k, s.ctl = .waitPixel k := by
  simp only [State.awaiting]
  cases s.ctl <;> simp

theorem State.not_awaiting_iff : s.awaiting = false ↔ s.ctl = .idle ∨ s.ctl = .faulted := by
  simp only [State.awaiting]
  cases s.ctl <;> simp

@[simp] theorem State.awaiting_issuePixel (k : Nat) : (s.issuePixel k).awaiting = true := rfl

@[simp] theorem State.awaiting_finish (a : Answer) : (s.finish a).awaiting = false := rfl

/-- A block that waits for nothing has no request to issue. -/
theorem State.currentRequest_of_not_awaiting {s : State} (h : s.awaiting = false) : s.currentRequest = none := by
  rcases s.not_awaiting_iff.1 h with h | h <;> simp [State.currentRequest, h]

theorem State.ready_iff : s.ready = true ↔ s.ctl = .idle := by simp [State.ready]

/-! ## The fault status register -/

@[simp] theorem fsrCause_fsrWord (c o : Byte) : fsrCause (fsrWord c o) = c := by
  ext i hi
  have h := BitVec.getLsbD_append (x := o) (y := c) (i := i)
  simp only [hi, if_true, BitVec.getLsbD_eq_getElem] at h
  simpa [fsrCause, fsrWord] using h

@[simp] theorem fsrOpcode_fsrWord (c o : Byte) : fsrOpcode (fsrWord c o) = o := by
  ext i hi
  have h := BitVec.getLsbD_append (x := o) (y := c) (i := 8 + i)
  rw [if_neg (by omega), Nat.add_sub_cancel_left, BitVec.getLsbD_eq_getElem hi] at h
  simpa [fsrOpcode, fsrWord] using h

@[simp] theorem fsrCause_zero : fsrCause 0#16 = 0#8 := by decide

theorem causeCode_ne_zero (c : Cause) : causeCode c ≠ 0 := by cases c <;> decide

@[simp] theorem State.faultLevel_raiseFault (c : Cause) (o : Byte) : (s.raiseFault c o).faultLevel = true := by
  simp only [State.faultLevel, State.raiseFault_fsr, fsrCause_fsrWord, bne_iff_ne]
  exact causeCode_ne_zero c

end Sys2Proof.Machine
end

