-- ==== Sys2Proof/Laws/Ops.lean ====
section
/-! SUPPORT. One lemma for each shared operation that says everything it can do. -/

namespace Sys2Proof.Machine

variable {s t : State}

/-! ## One answer -/

/-- What an answer does to a waiting block: it is an abandoned request's and is discarded, it ends the command, or it takes
PUSHSLOW to the next pixel. -/
theorem State.deliver_cases (a : Answer) (hw : s.awaiting = true) :
    (s.abandoned = true ∧ s.deliver a = s.release) ∨
    (s.abandoned = false ∧ s.deliver a = s.finish a ∧
      (s.ctl = .waitFrame ∨ s.ctl = .waitFill ∨ ∃ k, s.ctl = .waitPixel k ∧ (a = .ok → ¬k + 1 < s.cfg.cells))) ∨
    (s.abandoned = false ∧ ∃ k, s.ctl = .waitPixel k ∧ a = .ok ∧ k + 1 < s.cfg.cells ∧
      s.deliver a = s.issuePixel (k + 1)) := by
  cases hst : s.abandoned with
  | true => exact .inl ⟨rfl, by simp [State.deliver, hst]⟩
  | false =>
    rcases (State.awaiting_iff s).1 hw with hc | hc | ⟨k, hc⟩
    · exact .inr (.inl ⟨rfl, by simp [State.deliver, hst, hc], .inl hc⟩)
    · exact .inr (.inl ⟨rfl, by simp [State.deliver, hst, hc], .inr (.inl hc)⟩)
    · cases a with
      | err e => exact .inr (.inl ⟨rfl, by simp [State.deliver, hst, hc], .inr (.inr ⟨k, hc, by simp⟩)⟩)
      | ok =>
        by_cases hk : k + 1 < s.cfg.cells
        · exact .inr (.inr ⟨rfl, k, hc, rfl, hk, by simp [State.deliver, hst, hc, hk]⟩)
        · exact .inr (.inl ⟨rfl, by simp [State.deliver, hst, hc, hk], .inr (.inr ⟨k, hc, fun _ => hk⟩)⟩)

/-- The answer to an abandoned request is discarded, whatever CTL is, and a request held back by it goes out (10_state.md
R40, 20_memory.md R65). -/
theorem State.deliver_abandoned (a : Answer) (h : s.abandoned = true) : s.deliver a = s.release := by
  simp [State.deliver, h]

/-- The answer to a full frame or a fill ends the command (42_compositor.md R166, R174). -/
theorem State.deliver_finish (a : Answer) (h : s.abandoned = false) (hc : s.ctl = .waitFrame ∨ s.ctl = .waitFill) :
    s.deliver a = s.finish a := by
  rcases hc with hc | hc <;> simp [State.deliver, h, hc]

/-- A failed pixel ends PUSHSLOW (R172). -/
theorem State.deliver_pixel_err {k : Nat} (e : Byte) (h : s.abandoned = false) (hc : s.ctl = .waitPixel k) :
    s.deliver (.err e) = s.finish (.err e) := by
  simp [State.deliver, h, hc]

/-- A written pixel leads to the next one, or ends PUSHSLOW after the last (R172). -/
theorem State.deliver_pixel_ok {k : Nat} (h : s.abandoned = false) (hc : s.ctl = .waitPixel k) :
    s.deliver .ok = if k + 1 < s.cfg.cells then s.issuePixel (k + 1) else s.finish .ok := by
  simp [State.deliver, h, hc]

theorem State.deliver_inputs (a : Answer) : (s.deliver a).inputs = s.inputs := by
  simp only [State.deliver]
  repeat' split
  all_goals rfl

/-- An answer changes neither grid, nor BRIGHT, FSR, the configuration or the frames held on CMD. -/
theorem State.deliver_frame (a : Answer) :
    (s.deliver a).cfg = s.cfg ∧ (s.deliver a).work = s.work ∧ (s.deliver a).commit = s.commit ∧
    (s.deliver a).bright = s.bright ∧ (s.deliver a).fsr = s.fsr ∧ (s.deliver a).cmd = s.cmd := by
  simp only [State.deliver]
  repeat' split
  all_goals simp

/-! ## Running on through answers -/

/-- A block that waits for nothing stays as it is. -/
theorem State.resume_of_not_awaiting (h : s.awaiting = false) : s.resume = s := by
  simp only [State.resume]
  rcases s.inputs with _ | ⟨_ | _ | _ | _, _⟩ <;> simp [State.absorb, h]

/-- If the next move is not an answer, the block stays in its WAIT state (R43). -/
theorem State.resume_of_not_answer (h : ∀ a rest, s.inputs ≠ .answer a :: rest) : s.resume = s := by
  simp only [State.resume]
  rcases hi : s.inputs with _ | ⟨_ | a | _ | _, rest⟩ <;> simp only [State.absorb]
  exact absurd hi (h a rest)

/-- If the next move is an answer, it is delivered and the command runs on. -/
theorem State.resume_answer {a : Answer} {rest : List Input} (h : s.inputs = .answer a :: rest)
    (hw : s.awaiting = true) : s.resume = (({ s with inputs := rest }).deliver a).resume := by
  simp only [State.resume, State.deliver_inputs]
  rw [h]
  simp [State.absorb, hw]

/-- What every answer keeps while the block waits, running on keeps. -/
theorem State.resume_induct {P : State → Prop}
    (h : ∀ s a rest, s.inputs = .answer a :: rest → s.awaiting = true → P s → P (({ s with inputs := rest }).deliver a))
    (hs : P s) : P s.resume := by
  generalize hi : s.inputs = l
  induction l generalizing s with
  | nil => rw [State.resume_of_not_answer (by simp [hi])]; exact hs
  | cons i rest ih =>
    cases hw : s.awaiting with
    | false => rw [State.resume_of_not_awaiting hw]; exact hs
    | true =>
      cases i with
      | answer a =>
        rw [State.resume_answer hi hw]
        exact ih (h s a rest hi hw hs) (State.deliver_inputs a)
      | frame f => rw [State.resume_of_not_answer (by simp [hi])]; exact hs
      | reset => rw [State.resume_of_not_answer (by simp [hi])]; exact hs
      | quiet => rw [State.resume_of_not_answer (by simp [hi])]; exact hs

/-- Running on changes neither grid, nor BRIGHT, FSR, the configuration or the frames held on CMD. -/
theorem State.resume_frame (s : State) :
    s.resume.cfg = s.cfg ∧ s.resume.work = s.work ∧ s.resume.commit = s.commit ∧
    s.resume.bright = s.bright ∧ s.resume.fsr = s.fsr ∧ s.resume.cmd = s.cmd := by
  refine State.resume_induct (P := fun t => t.cfg = s.cfg ∧ t.work = s.work ∧ t.commit = s.commit ∧
    t.bright = s.bright ∧ t.fsr = s.fsr ∧ t.cmd = s.cmd) ?_ ⟨rfl, rfl, rfl, rfl, rfl, rfl⟩
  intro u a rest _ _ hu
  simpa [State.deliver_frame] using hu

/-- While an abandoned request is unanswered, the next answer is its and is discarded; the command's request then goes out
and the command runs on (R40, 20_memory.md R65). -/
theorem State.resume_abandoned {a : Answer} {rest : List Input} (hw : s.awaiting = true) (ha : s.abandoned = true)
    (hi : s.inputs = .answer a :: rest) : s.resume = (({ s with inputs := rest }).release).resume := by
  rw [State.resume_answer hi hw, State.deliver_abandoned (s := { s with inputs := rest }) a ha]

/-- A command that has just issued its request runs on from the state in which the request is out, once the answer owed to
an abandoned request, if there is one, has come. -/
theorem State.resume_issue {s : State} {c : Ctl} {r : Request} {late : List Answer} {rest : List Input}
    (hw : (s.issue c r).awaiting = true) (hr : (s.issue c r).currentRequest = some r)
    (hn : late.length = s.abandoned.toNat) (hi : s.inputs = late.map .answer ++ rest) :
    (s.issue c r).resume = ({ s with
      ctl := c, abandoned := false, inputs := rest, events := s.events ++ [.request r] } : State).resume := by
  cases ha : s.abandoned with
  | false =>
    rw [ha] at hn
    obtain rfl := List.length_eq_zero_iff.1 hn
    simp only [List.map_nil, List.nil_append] at hi
    simp [State.issue, ha, ← hi]
  | true =>
    rw [ha] at hn
    obtain ⟨a, rfl⟩ := List.length_eq_one_iff.1 hn
    rw [State.resume_abandoned (a := a) (rest := rest) hw ha hi]
    have h : ({ s.issue c r with inputs := rest } : State).currentRequest = some r := hr
    simp only [State.release, h]
    simp [State.issue, ha]

/-- The whole wait of a full frame or a fill whose answer comes: the answer ends the command. -/
theorem State.resume_finish {a : Answer} {rest : List Input} (hc : s.ctl = .waitFrame ∨ s.ctl = .waitFill)
    (hn : s.abandoned = false) (hi : s.inputs = .answer a :: rest) :
    s.resume = ({ s with inputs := rest }).finish a := by
  have hw : s.awaiting = true := (State.awaiting_iff s).2 (by tauto)
  rw [State.resume_answer hi hw, State.deliver_finish (s := { s with inputs := rest }) a hn hc,
    State.resume_of_not_awaiting rfl]

/-! ## Composition -/

/-- FB after compose() at a cell's flat index (42_compositor.md R163). -/
theorem read_composeFrame (cfg : Config) (commit : Memory) (bright : Byte) {x y : Nat} (hx : x < cfg.width)
    (hy : y < cfg.height) :
    (composeFrame cfg.toParams commit bright).read (flat cfg.toParams x y) =
      scale (commit.read (cellIndex cfg.toParams x y)) bright := by
  refine Memory.read_writeAll_agree Memory.wf_nil ?_ ?_
  · exact List.mem_map.2 ⟨(x, y), mem_gridByColumns.2 ⟨hx, hy⟩, rfl⟩
  · intro c hc heq
    obtain ⟨⟨x', y'⟩, hm, rfl⟩ := List.mem_map.1 hc
    obtain ⟨hx', hy'⟩ := mem_gridByColumns.1 hm
    obtain ⟨rfl, rfl⟩ := flat_inj cfg hx' hy' hx hy heq
    rfl

/-- FB after compose() at an index no cell maps to (R164). -/
theorem read_composeFrame_unmapped (p : Params) (commit : Memory) (bright : Byte) {k : Nat}
    (h : ∀ x y, x < p.width → y < p.height → flat p x y ≠ k) : (composeFrame p commit bright).read k = 0 := by
  refine Memory.read_writeAll_other fun c hc => ?_
  obtain ⟨⟨x, y⟩, hm, rfl⟩ := List.mem_map.1 hc
  obtain ⟨hx, hy⟩ := mem_gridByColumns.1 hm
  exact h x y hx hy

theorem composeFrame_wf (p : Params) (commit : Memory) (bright : Byte) : (composeFrame p commit bright).wf :=
  Memory.wf_writeAll Memory.wf_nil

theorem composeFrame_within (cfg : Config) (commit : Memory) (bright : Byte) :
    (composeFrame cfg.toParams commit bright).within cfg.bufLen := by
  refine Memory.within_writeAll (by simp [Memory.within]) fun c hc => ?_
  obtain ⟨⟨x, y⟩, hm, rfl⟩ := List.mem_map.1 hc
  obtain ⟨hx, hy⟩ := mem_gridByColumns.1 hm
  exact flat_lt cfg hx hy

theorem framePayload_length (p : Params) (fb : Memory) : (framePayload p fb).length = p.bufLen := by
  simp [framePayload]

theorem framePayload_getElem? (p : Params) (fb : Memory) {k : Nat} (h : k < p.bufLen) :
    (framePayload p fb)[k]? = some (fb.read k) := by
  simp [framePayload, h]

/-! ## Whole-grid writes -/

/-- COMMIT after SETGRID's copy reads as WORK in every cell (42_compositor.md R178). -/
theorem read_setgridWrites (p : Params) (commit work : Memory) (hm : commit.wf) {x y : Nat} (hx : x < p.width)
    (hy : y < p.height) :
    (commit.writeAll (setgridWrites p work)).read (cellIndex p x y) = work.read (cellIndex p x y) := by
  refine Memory.read_writeAll_agree hm ?_ ?_
  · exact List.mem_map.2 ⟨(x, y), mem_gridByColumns.2 ⟨hx, hy⟩, rfl⟩
  · intro c hc heq
    obtain ⟨⟨x', y'⟩, -, rfl⟩ := List.mem_map.1 hc
    exact congrArg work.read heq

/-- A write list that names only cells of the grid. -/
def GridWrites (p : Params) (writes : List (Nat × Byte)) : Prop := ∀ c ∈ writes, c.1 < p.cells

theorem gridWrites_clear (p : Params) : GridWrites p (clearWrites p) := by
  intro c hc
  obtain ⟨⟨x, y⟩, hm, rfl⟩ := List.mem_map.1 hc
  obtain ⟨hx, hy⟩ := mem_gridByColumns.1 hm
  exact cellIndex_lt hx hy

theorem gridWrites_setgrid (p : Params) (work : Memory) : GridWrites p (setgridWrites p work) := by
  intro c hc
  obtain ⟨⟨x, y⟩, hm, rfl⟩ := List.mem_map.1 hc
  obtain ⟨hx, hy⟩ := mem_gridByColumns.1 hm
  exact cellIndex_lt hx hy

theorem gridWrites_loadgrid (p : Params) (c : List Byte) : GridWrites p (loadgridWrites p c) := by
  intro w hw
  obtain ⟨l, hl, rfl⟩ := List.mem_map.1 hw
  simpa [cellIndex_mod_div] using hl

theorem gridWrites_loadpk (p : Params) (pk : List Byte) : GridWrites p (loadpkWrites p pk) := by
  intro c hc
  obtain ⟨⟨x, y⟩, hm, rfl⟩ := List.mem_map.1 hc
  obtain ⟨hx, hy⟩ := mem_gridByRows.1 hm
  exact cellIndex_lt (mirror_lt hx) hy

/-- The 64 writes of GLYPH, one for each glyph pixel (41_glyph.md R141). -/
theorem mem_glyphWrites {p : Params} {off : Byte} {g : List Byte} {c : Nat × Byte} :
    c ∈ glyphWrites p off g ↔ ∃ gx gy, gx < 8 ∧ gy < 8 ∧
      c = (cellIndex p (7 - gx) (gy + off.toNat), level (glyphBit g gx gy)) := by
  simp only [glyphWrites, List.mem_flatMap, List.mem_map, List.mem_range, glyphN, mirror]
  constructor
  · rintro ⟨gx, hx, gy, hy, rfl⟩; exact ⟨gx, gy, hx, hy, rfl⟩
  · rintro ⟨gx, gy, hx, hy, rfl⟩; exact ⟨gx, hx, gy, hy, rfl⟩

theorem gridWrites_glyph (cfg : Config) {off : Byte} (g : List Byte) (h : glyphFits cfg.toParams off = true) :
    GridWrites cfg.toParams (glyphWrites cfg.toParams off g) := by
  intro c hc
  obtain ⟨gx, gy, hx, hy, rfl⟩ := mem_glyphWrites.1 hc
  have hw : 8 ≤ cfg.width := cfg.ok.1.1
  have hh := glyphFits_iff.1 h
  exact cellIndex_lt (by omega) (by omega)

/-! ## Each write list gives each address one value -/

theorem loadpkWrites_agree (p : Params) (pk : List Byte) :
    ∀ c ∈ loadpkWrites p pk, ∀ d ∈ loadpkWrites p pk, c.1 = d.1 → c.2 = d.2 := by
  intro c hc d hd he
  obtain ⟨⟨x, y⟩, hm, rfl⟩ := List.mem_map.1 hc
  obtain ⟨hx, hy⟩ := mem_gridByRows.1 hm
  obtain ⟨⟨x', y'⟩, hm', rfl⟩ := List.mem_map.1 hd
  obtain ⟨hx', hy'⟩ := mem_gridByRows.1 hm'
  obtain ⟨h1, rfl⟩ := cellIndex_inj (mirror_lt hx) (mirror_lt hx') he
  obtain rfl : x = x' := by simp only [mirror] at h1; omega
  rfl

theorem glyphWrites_agree (cfg : Config) (off : Byte) (g : List Byte) :
    ∀ c ∈ glyphWrites cfg.toParams off g, ∀ d ∈ glyphWrites cfg.toParams off g, c.1 = d.1 → c.2 = d.2 := by
  intro c hc d hd he
  obtain ⟨gx, gy, hx, hy, rfl⟩ := mem_glyphWrites.1 hc
  obtain ⟨gx', gy', hx', hy', rfl⟩ := mem_glyphWrites.1 hd
  have hw : 8 ≤ cfg.width := cfg.ok.1.1
  obtain ⟨h1, h2⟩ := cellIndex_inj (by omega) (by omega) he
  obtain rfl : gx = gx' := by omega
  obtain rfl : gy = gy' := by omega
  rfl

theorem composeWrites_agree (cfg : Config) (commit : Memory) (bright : Byte) :
    ∀ c ∈ composeWrites cfg.toParams commit bright, ∀ d ∈ composeWrites cfg.toParams commit bright,
      c.1 = d.1 → c.2 = d.2 := by
  intro c hc d hd he
  obtain ⟨⟨x, y⟩, hm, rfl⟩ := List.mem_map.1 hc
  obtain ⟨hx, hy⟩ := mem_gridByColumns.1 hm
  obtain ⟨⟨x', y'⟩, hm', rfl⟩ := List.mem_map.1 hd
  obtain ⟨hx', hy'⟩ := mem_gridByColumns.1 hm'
  obtain ⟨rfl, rfl⟩ := flat_inj cfg hx hy hx' hy' he
  rfl

theorem loadpkWrites_nodup (p : Params) (pk : List Byte) : ((loadpkWrites p pk).map Prod.fst).Nodup := by
  unfold loadpkWrites
  rw [List.map_map]
  refine List.Nodup.map_on ?_ (gridByRows_nodup p)
  rintro ⟨x, y⟩ hm ⟨x', y'⟩ hm' he
  obtain ⟨hx, hy⟩ := mem_gridByRows.1 hm
  obtain ⟨hx', hy'⟩ := mem_gridByRows.1 hm'
  obtain ⟨h1, rfl⟩ := cellIndex_inj (mirror_lt hx) (mirror_lt hx') he
  obtain rfl : x = x' := by simp only [mirror] at h1; omega
  rfl

/-- WORK after LOADPK's writes, in the mirrored column of (x, y). -/
theorem read_loadpkWrites {p : Params} {m : Memory} (pk : List Byte) (hm : m.wf) {x y : Nat} (hx : x < p.width)
    (hy : y < p.height) :
    (m.writeAll (loadpkWrites p pk)).read (cellIndex p (p.width - 1 - x) y) =
      level (packedBit pk (x + p.width * y)) := by
  have hmem : (cellIndex p (p.width - 1 - x) y, level (packedBit pk (x + p.width * y))) ∈ loadpkWrites p pk :=
    List.mem_map.2 ⟨(x, y), mem_gridByRows.2 ⟨hx, hy⟩, rfl⟩
  exact Memory.read_writeAll_agree hm hmem fun d hd he => loadpkWrites_agree p pk d hd _ hmem he

/-- WORK after GLYPH's writes, at the cell of glyph pixel (gx, gy). -/
theorem read_glyphWrites (cfg : Config) {m : Memory} {off : Byte} (g : List Byte) (hm : m.wf) {gx gy : Nat}
    (hx : gx < 8) (hy : gy < 8) :
    (m.writeAll (glyphWrites cfg.toParams off g)).read (cellIndex cfg.toParams (7 - gx) (gy + off.toNat)) =
      level (glyphBit g gx gy) :=
  Memory.read_writeAll_agree hm (mem_glyphWrites.2 ⟨gx, gy, hx, hy, rfl⟩) fun d hd he =>
    glyphWrites_agree cfg off g d hd _ (mem_glyphWrites.2 ⟨gx, gy, hx, hy, rfl⟩) he

theorem loadpkWrites_level (p : Params) (pk : List Byte) : ∀ c ∈ loadpkWrites p pk, c.2 = 0 ∨ c.2 = 255 := by
  intro c hc
  obtain ⟨_, -, rfl⟩ := List.mem_map.1 hc
  exact level_eq_zero_or _

/-! ## What running on emits and keeps -/

theorem answerResponse_eq (a : Answer) : answerResponse a = statusBytes a := by cases a <;> rfl

theorem responsesOf_append (a b : List Event) : responsesOf (a ++ b) = responsesOf a ++ responsesOf b := by
  simp [responsesOf]

theorem requestsOf_append (a b : List Event) : requestsOf (a ++ b) = requestsOf a ++ requestsOf b := by
  simp [requestsOf]

theorem answersOf_append (a b : List Input) : answersOf (a ++ b) = answersOf a ++ answersOf b := by
  simp [answersOf]

/-- A request, issued or held back, is no response. -/
theorem State.issue_responses (c : Ctl) (r : Request) : responsesOf (s.issue c r).events = responsesOf s.events := by
  rw [State.issue_events]
  split <;> simp [responsesOf]

theorem State.release_responses : responsesOf s.release.events = responsesOf s.events := by
  rw [State.release_events, responsesOf_append]
  cases s.currentRequest <;> simp [responsesOf]

/-- Running on only appends to what was emitted. -/
theorem State.resume_events (s : State) : ∃ tail, s.resume.events = s.events ++ tail := by
  refine State.resume_induct (P := fun t => ∃ tail, t.events = s.events ++ tail) ?_ ⟨[], by simp⟩
  rintro u a rest _ hw ⟨tail, hu⟩
  rcases State.deliver_cases (s := { u with inputs := rest }) a hw with ⟨-, h⟩ | ⟨-, h, -⟩ | ⟨hn, k, -, -, -, h⟩
  · rw [h, State.release_events]
    exact ⟨tail ++ ({ u with inputs := rest } : State).currentRequest.toList.map .request, by
      show u.events ++ _ = _
      rw [hu, List.append_assoc]⟩
  · rw [h]
    exact ⟨tail ++ [.response (answerResponse a)], by simp [hu]⟩
  · rw [h, State.issuePixel_events, if_neg (Bool.eq_false_iff.1 hn)]
    exact ⟨tail ++ [.request (({ u with inputs := rest } : State).pixelRequest (k + 1))], by
      show u.events ++ _ = _
      rw [hu, List.append_assoc]⟩

/-- A command that issues a request sends it before anything else, or holds it back while an abandoned request is
unanswered (20_memory.md R65, log 4). -/
theorem State.issue_sends {s : State} {c : Ctl} {r : Request} (hw : (s.issue c r).awaiting = true)
    (hr : (s.issue c r).currentRequest = some r) :
    (∃ tail, (s.issue c r).resume.events = s.events ++ .request r :: tail) ∨
    ((s.issue c r).resume.abandoned = true ∧ (s.issue c r).resume.events = s.events ∧
      (s.issue c r).resume.currentRequest = some r) := by
  cases ha : s.abandoned with
  | false =>
    obtain ⟨tail, h⟩ := State.resume_events (s.issue c r)
    refine .inl ⟨tail, ?_⟩
    rw [h, State.issue_events, if_neg (Bool.eq_false_iff.1 ha), List.append_assoc]
    rfl
  | true =>
    by_cases hi : ∃ a rest, s.inputs = .answer a :: rest
    · obtain ⟨a, rest, hi⟩ := hi
      obtain ⟨tail, h⟩ := State.resume_events (({ s.issue c r with inputs := rest } : State).release)
      have h1 : ({ s.issue c r with inputs := rest } : State).currentRequest = some r := hr
      refine .inl ⟨tail, ?_⟩
      rw [State.resume_abandoned (a := a) (rest := rest) hw ha hi, h, State.release_events, h1]
      simp [State.issue, ha]
    · rw [State.resume_of_not_answer (s := s.issue c r) fun a rest h => hi ⟨a, rest, h⟩]
      exact .inr ⟨ha, by rw [State.issue_events, if_pos ha], hr⟩

/-- Running on never enters FAULTED (60_exceptions.md R228). -/
theorem State.resume_not_faulted (h : s.ctl ≠ .faulted) : s.resume.ctl ≠ .faulted := by
  refine State.resume_induct (P := fun t => t.ctl ≠ .faulted) ?_ h
  intro u a rest _ hw hu
  rcases State.deliver_cases (s := { u with inputs := rest }) a hw with ⟨-, h⟩ | ⟨-, h, -⟩ | ⟨-, k, -, -, -, h⟩ <;>
    rw [h]
  · exact hu
  · simp
  · simp

/-- Running on does not look at WORK. -/
theorem State.resume_work (s : State) (w : Memory) :
    ({ s with work := w } : State).resume = { s.resume with work := w } := by
  suffices H : ∀ l (s : State), s.inputs = l →
      ({ s with work := w } : State).resume = { s.resume with work := w } from H _ s rfl
  intro l
  induction l with
  | nil =>
    intro s hl
    rw [State.resume_of_not_answer (s := s) (by simp [hl]),
      State.resume_of_not_answer (s := { s with work := w }) (by simp [hl])]
  | cons i rest ih =>
    intro s hl
    by_cases hna : ∀ a rest, s.inputs ≠ .answer a :: rest
    · rw [State.resume_of_not_answer (s := s) hna, State.resume_of_not_answer (s := { s with work := w }) hna]
    · cases hw : s.awaiting with
      | false =>
        rw [State.resume_of_not_awaiting (s := s) hw, State.resume_of_not_awaiting (s := { s with work := w }) hw]
      | true =>
        obtain ⟨a, hi⟩ : ∃ a, s.inputs = .answer a :: rest := by
          push Not at hna
          obtain ⟨a, r, h⟩ := hna
          rw [hl] at h
          cases h
          exact ⟨a, hl⟩
        rw [State.resume_answer (s := s) hi hw, State.resume_answer (s := { s with work := w }) hi hw]
        have hd : ({ s with work := w, inputs := rest } : State).deliver a =
            { ({ s with inputs := rest } : State).deliver a with work := w } := by
          simp only [State.deliver, State.release]
          repeat' split
          all_goals rfl
        rw [hd]
        exact ih _ (State.deliver_inputs a)

end Sys2Proof.Machine
end

