-- ==== Sys2Proof/Laws/Exec.lean ====
section
/-! SUPPORT. What running a command can do, said once for all commands. -/

namespace Sys2Proof.Machine

variable {s t : State} {i : Instr}

/-- The state a command that pushes composes from: PUSH's own, SETGRID's with the new COMMIT, SETBRT's with the new
BRIGHT. -/
inductive PushedFrom (s : State) : Instr → State → Prop
  | push : PushedFrom s .push s
  | setgrid : PushedFrom s .setgrid (s.writeCommit (setgridWrites s.cfg.toParams s.work))
  | setbrt (b : Byte) : PushedFrom s (.setbrt b) { s with bright := b }

/-- How a command ends. -/
inductive ExecCase (s : State) (i : Instr) (t : State) : Prop
  /-- CLEAR, WRCELL, LOADGRID, LOADPK and GLYPH write cells of WORK. -/
  | wrote (w : List (Nat × Byte)) (hw : GridWrites s.cfg.toParams w)
      (ht : t = (s.writeWork w).respond (okResponse []))
  /-- RDCELL and RDBRT answer. -/
  | read (b : Frame) (hi : (∃ x y, i = .rdcell x y) ∨ i = .rdbrt) (ht : t = s.respond b)
  /-- WRCELL, RDCELL and GLYPH fault on an operand. -/
  | faulted (c : Cause) (hi : (∃ x y v, i = .wrcell x y v) ∨ (∃ x y, i = .rdcell x y) ∨ (∃ off g, i = .glyph off g))
      (ht : t = s.raiseFault c i.opcode.byte)
  /-- PUSH, SETGRID and SETBRT push. -/
  | pushed (u : State) (hu : PushedFrom s i u) (ht : t = u.push)
  /-- PUSHSLOW starts with pixel 0. -/
  | slow (hi : i = .pushslow) (ht : t = (s.issuePixel 0).resume)
  /-- FULLON fills. -/
  | filled (hi : i = .fullon) (ht : t = (s.issue .waitFill (.fillAll s.cfg.fullOnValue)).resume)

/-- Every command answers a next state, in one of these ways. -/
theorem exec_cases (i : Instr) (s : State) : ∃ t, exec i s = .next t ∧ ExecCase s i t := by
  cases i with
  | clear => exact ⟨_, rfl, .wrote _ (gridWrites_clear _) rfl⟩
  | wrcell x y v =>
    simp only [exec, execWrcell]
    split
    · next h =>
      obtain ⟨hx, hy⟩ := inGrid_iff.1 h
      exact ⟨_, rfl, .wrote _ (by intro c hc; rw [List.mem_singleton.1 hc]; exact cellIndex_lt hx hy) rfl⟩
    · exact ⟨_, rfl, .faulted _ (.inl ⟨x, y, v, rfl⟩) rfl⟩
  | rdcell x y =>
    simp only [exec, execRdcell]
    split
    · exact ⟨_, rfl, .read _ (.inl ⟨x, y, rfl⟩) rfl⟩
    · exact ⟨_, rfl, .faulted _ (.inr (.inl ⟨x, y, rfl⟩)) rfl⟩
  | loadgrid c => exact ⟨_, rfl, .wrote _ (gridWrites_loadgrid _ c) rfl⟩
  | loadpk pk => exact ⟨_, rfl, .wrote _ (gridWrites_loadpk _ pk) rfl⟩
  | glyph off g =>
    simp only [exec, execGlyph]
    split
    · next h => exact ⟨_, rfl, .wrote _ (gridWrites_glyph s.cfg g h) rfl⟩
    · exact ⟨_, rfl, .faulted _ (.inr (.inr ⟨off, g, rfl⟩)) rfl⟩
  | setgrid => exact ⟨_, rfl, .pushed _ .setgrid rfl⟩
  | setbrt b => exact ⟨_, rfl, .pushed _ (.setbrt b) rfl⟩
  | push => exact ⟨_, rfl, .pushed _ .push rfl⟩
  | pushslow => exact ⟨_, rfl, .slow rfl rfl⟩
  | fullon => exact ⟨_, rfl, .filled rfl rfl⟩
  | rdbrt => exact ⟨_, rfl, .read _ (.inr rfl) rfl⟩

theorem exec_case (h : exec i s = .next t) : ExecCase s i t := by
  obtain ⟨u, hu, hc⟩ := exec_cases i s
  rw [hu] at h
  cases h
  exact hc

/-- push() before its wait: FB composed, CTL = WAIT_FRAME, the request issued or held back (42_compositor.md R166). -/
theorem State.push_eq (s : State) :
    s.push = State.resume { s with
      fb := some (composeFrame s.cfg.toParams s.commit s.bright)
      ctl := .waitFrame
      events := if s.abandoned then s.events else s.events ++
        [.request (.writeFullFrame (framePayload s.cfg.toParams (composeFrame s.cfg.toParams s.commit s.bright)))] } :=
  rfl

/-- push() writes neither grid, nor BRIGHT nor FSR (R166). -/
theorem State.push_frame (s : State) :
    s.push.cfg = s.cfg ∧ s.push.work = s.work ∧ s.push.commit = s.commit ∧ s.push.bright = s.bright ∧
    s.push.fsr = s.fsr ∧ s.push.cmd = s.cmd := by
  rw [State.push_eq]
  exact State.resume_frame _

/-- push() emits its request first, then what the TRANSPORT's answers bring; or it holds the request back (R166, log 4). -/
theorem State.push_sends (s : State) : SendsFrame s s.push
    (framePayload s.cfg.toParams (composeFrame s.cfg.toParams s.commit s.bright)) :=
  State.issue_sends (s := { s with fb := some (composeFrame s.cfg.toParams s.commit s.bright) }) rfl rfl

theorem State.push_not_faulted (s : State) : s.push.ctl ≠ .faulted := by
  rw [State.push_eq]
  exact State.resume_not_faulted (by simp)

/-- What a pushing command composes from differs from the state it began in in COMMIT and BRIGHT alone. -/
theorem PushedFrom.frame {u : State} (h : PushedFrom s i u) :
    u = { s with commit := u.commit, bright := u.bright } := by
  cases h <;> rfl

/-- No command changes the configuration or the frames held on CMD. -/
theorem exec_keeps (h : exec i s = .next t) : t.cfg = s.cfg ∧ t.cmd = s.cmd := by
  rcases exec_case h with ⟨w, hw, rfl⟩ | ⟨b, -, rfl⟩ | ⟨c, -, rfl⟩ | ⟨u, hu, rfl⟩ | ⟨-, rfl⟩ | ⟨-, rfl⟩
  · simp
  · simp
  · simp
  · have h1 := State.push_frame u
    have h2 := hu.frame
    rw [h2] at h1 ⊢
    exact ⟨h1.1, h1.2.2.2.2.2⟩
  · have := State.resume_frame (s.issuePixel 0)
    exact ⟨this.1, this.2.2.2.2.2⟩
  · have := State.resume_frame (s.issue .waitFill (.fillAll s.cfg.fullOnValue))
    exact ⟨this.1, this.2.2.2.2.2⟩

/-- GLYPH on an offset that fits. -/
theorem exec_glyph_fits {off : Byte} (g : List Byte) (h : off.toNat + 8 ≤ s.cfg.height) :
    exec (.glyph off g) s = .next ((s.writeWork (glyphWrites s.cfg.toParams off g)).respond (okResponse [])) := by
  simp only [exec, execGlyph, glyphFits_iff.2 h, if_true]

/-- WRCELL and RDCELL on a cell of the grid. -/
theorem exec_wrcell_in {x y : Byte} (v : Byte) (hx : x.toNat < s.cfg.width) (hy : y.toNat < s.cfg.height) :
    exec (.wrcell x y v) s =
      .next ((s.writeWork [(cellIndex s.cfg.toParams x.toNat y.toNat, v)]).respond (okResponse [])) := by
  simp only [exec, execWrcell, inGrid_iff.2 ⟨hx, hy⟩, if_true]

theorem exec_rdcell_in {x y : Byte} (hx : x.toNat < s.cfg.width) (hy : y.toNat < s.cfg.height) :
    exec (.rdcell x y) s = .next (s.respond (okResponse [s.readWork x.toNat y.toNat])) := by
  simp only [exec, execRdcell, inGrid_iff.2 ⟨hx, hy⟩, if_true]

end Sys2Proof.Machine
end

