-- ==== Sys2Proof/Laws/Generators.lean ====
section
/-! SUPPORT. The laws of HOST grids (45_host_generators.md R200). -/

namespace Sys2Proof.Machine

variable {p : Params} {f : Nat → Nat → Byte} {x y : Nat} {v : Byte}

theorem gridOf_length : (gridOf p f).length = p.cells := by simp [gridOf]

theorem gridCell_gridOf (hx : x < p.width) (hy : y < p.height) : gridCell p (gridOf p f) x y = f x y := by
  have h := cellIndex_lt hx hy
  simp only [gridCell, gridOf, List.getD_eq_getElem?_getD]
  rw [List.getElem?_map, List.getElem?_range h]
  simp [cellIndex_mod hx, cellIndex_div hx]

theorem gridOf_all (h : ∀ x y, x < p.width → y < p.height → f x y = v) : ∀ w ∈ gridOf p f, w = v := by
  intro w hw
  obtain ⟨l, hl, rfl⟩ := List.mem_map.1 hw
  have hl := List.mem_range.1 hl
  exact h _ _ (mod_lt_width hl) (div_lt_height hl)

end Sys2Proof.Machine
end

