-- ==== Sys2Proof/Laws/PerInstr.lean ====
section
/-! SUPPORT. Statements about every command as syntax, one lemma a constructor. -/

namespace Sys2Proof.Laws

/-- EncodeShape: a well-formed command's frame begins with the opcode of 30_encoding.md R83 and has the length R81 fixes
for that opcode. -/
def EncodeShape.Statement (i : Instr) : Prop :=
  ∀ p : Params, i.wf p = true → (encode i).head? = some i.opcode.byte ∧ (encode i).length = i.opcode.length p

namespace EncodeShape

theorem clear : Statement .clear := fun _ _ => ⟨rfl, rfl⟩
theorem wrcell (x y v : Byte) : Statement (.wrcell x y v) := fun _ _ => ⟨rfl, rfl⟩
theorem rdcell (x y : Byte) : Statement (.rdcell x y) := fun _ _ => ⟨rfl, rfl⟩
theorem loadgrid (c : List Byte) : Statement (.loadgrid c) := fun p h => by
  simp_all [Instr.wf, encode, Instr.operands, Instr.opcode, Opcode.length, Opcode.format, Format.length, Nat.add_comm]
theorem loadpk (pk : List Byte) : Statement (.loadpk pk) := fun p h => by
  simp_all [Instr.wf, encode, Instr.operands, Instr.opcode, Opcode.length, Opcode.format, Format.length, Nat.add_comm]
theorem glyph (off : Byte) (g : List Byte) : Statement (.glyph off g) := fun p h => by
  simp_all [Instr.wf, encode, Instr.operands, Instr.opcode, Opcode.length, Opcode.format, Format.length, glyphN]
theorem setgrid : Statement .setgrid := fun _ _ => ⟨rfl, rfl⟩
theorem setbrt (b : Byte) : Statement (.setbrt b) := fun _ _ => ⟨rfl, rfl⟩
theorem push : Statement .push := fun _ _ => ⟨rfl, rfl⟩
theorem pushslow : Statement .pushslow := fun _ _ => ⟨rfl, rfl⟩
theorem fullon : Statement .fullon := fun _ _ => ⟨rfl, rfl⟩
theorem rdbrt : Statement .rdbrt := fun _ _ => ⟨rfl, rfl⟩

end EncodeShape

end Sys2Proof.Laws
end

