-- ==== Sys2Proof/Laws/Step.lean ====
section
/-! SUPPORT. What one step can do, said once: every invariant is a case analysis over `StepCase`. -/

namespace Sys2Proof.Machine

variable {s t : State}

theorem State.resetNext_iff : s.resetNext = true ↔ ∃ rest, s.inputs = .reset :: rest := by
  simp only [State.resetNext]
  rcases s.inputs with _ | ⟨_ | _ | _ | _, _⟩ <;> simp

theorem State.nextFrame_eq_some {f : Frame} {u : State} :
    s.nextFrame = some (f, u) ↔ s.ctl = .idle ∧ ∃ rest, s.cmd = f :: rest ∧ u = { s with cmd := rest } := by
  simp only [State.nextFrame]
  cases s.ctl <;> cases s.cmd <;> simp [eq_comm]

theorem State.nextFrame_eq_none : s.nextFrame = none ↔ s.ctl ≠ .idle ∨ s.cmd = [] := by
  simp only [State.nextFrame]
  cases s.ctl <;> cases s.cmd <;> simp

/-- How a step that goes on ends. -/
inductive StepCase (s t : State) : Prop
  /-- RESET (60_exceptions.md R226). -/
  | reset (rest : List Input) (hi : s.inputs = .reset :: rest) (ht : t = ({ s with inputs := rest }).assertReset)
  /-- An IDLE block runs the command of the oldest held frame. -/
  | ran (f : Frame) (rest : List Frame) (i : Instr) (hc : s.ctl = .idle) (hf : s.cmd = f :: rest)
      (hd : decode s.cfg.toParams f = .ok i) (ht : exec i { s with cmd := rest } = .next t)
  /-- An IDLE block rejects the oldest held frame. -/
  | rejected (f : Frame) (rest : List Frame) (r : Reject) (hc : s.ctl = .idle) (hf : s.cmd = f :: rest)
      (hd : decode s.cfg.toParams f = .error r)
      (ht : t = ({ s with cmd := rest }).raiseFault r.cause r.opcode)
  /-- Nothing is left to happen. -/
  | still (hn : s.ctl ≠ .idle ∨ s.cmd = []) (hi : s.inputs = []) (ht : t = s)
  /-- HOST offers a frame: it is held. -/
  | held (hn : s.ctl ≠ .idle ∨ s.cmd = []) (f : Frame) (rest : List Input) (hi : s.inputs = .frame f :: rest)
      (ht : t = { s with inputs := rest, cmd := s.cmd ++ [f] })
  /-- Nobody does anything. -/
  | quiet (hn : s.ctl ≠ .idle ∨ s.cmd = []) (rest : List Input) (hi : s.inputs = .quiet :: rest)
      (ht : t = { s with inputs := rest })
  /-- TRANSPORT gives an answer it owes. -/
  | answered (hn : s.ctl ≠ .idle ∨ s.cmd = []) (a : Answer) (rest : List Input) (hi : s.inputs = .answer a :: rest)
      (hw : s.awaiting = true ∨ s.abandoned = true)
      (ht : t = (({ s with inputs := rest }).deliver a).resume)

theorem step_case (h : step s = .next t) : StepCase s t := by
  simp only [step] at h
  split at h
  · rename_i f u hn
    have hr : s.resetNext = false := by
      cases hr : s.resetNext with
      | false => rfl
      | true => simp [hr] at hn
    simp only [hr] at hn
    obtain ⟨hc, rest, hf, rfl⟩ := State.nextFrame_eq_some.1 hn
    simp only [State.accept] at h
    split at h
    · next i hd => exact .ran f rest i hc hf hd h
    · next r hd => cases h; exact .rejected f rest r hc hf hd rfl
  · next hn hi =>
    have hn : s.nextFrame = none := by simpa [State.resetNext, hi] using hn
    cases h
    exact .still (State.nextFrame_eq_none.1 hn) hi rfl
  · next i rest hn hi =>
    have hn' : i ≠ .reset → s.ctl ≠ .idle ∨ s.cmd = [] := fun hne => by
      have : s.resetNext = false := by cases i <;> simp_all [State.resetNext]
      exact State.nextFrame_eq_none.1 (by simpa [this] using hn)
    cases i with
    | frame f => cases h; exact .held (hn' (by simp)) f rest hi rfl
    | quiet => cases h; exact .quiet (hn' (by simp)) rest hi rfl
    | reset => cases h; exact .reset rest hi rfl
    | answer a =>
      simp only [State.takeInput, State.takeAnswer] at h
      split at h
      · next hw =>
        cases h
        refine .answered (hn' (by simp)) a rest hi ?_ rfl
        simpa [State.awaiting] using hw
      · simp at h

/-- The step of an IDLE block that holds a frame, when no RESET comes first (10_state.md R36, R38). -/
theorem step_accept {f : Frame} {rest : List Frame} (hr : s.resetNext = false) (hc : s.ctl = .idle)
    (hf : s.cmd = f :: rest) : step s = ({ s with cmd := rest }).accept f := by
  have hn : s.nextFrame = some (f, { s with cmd := rest }) := State.nextFrame_eq_some.2 ⟨hc, rest, hf, rfl⟩
  simp [step, hr, hn]

/-- The step of a RESET (60_exceptions.md R226). -/
theorem step_reset {rest : List Input} (hi : s.inputs = .reset :: rest) :
    step s = .next ({ s with inputs := rest }).assertReset := by
  have hr : s.resetNext = true := State.resetNext_iff.2 ⟨rest, hi⟩
  simp [step, hr, hi, State.takeInput]

/-- The step of a block that is waiting or FAULTED, or that holds no frame: the next move takes place. -/
theorem step_input {i : Input} {rest : List Input} (hn : s.ctl ≠ .idle ∨ s.cmd = []) (hi : s.inputs = i :: rest) :
    step s = ({ s with inputs := rest }).takeInput i := by
  have hn := State.nextFrame_eq_none.2 hn
  simp [step, hn, hi]

/-- The step of such a block when nothing is left to happen (10_state.md R43, 60_exceptions.md R227). -/
theorem step_still (hn : s.ctl ≠ .idle ∨ s.cmd = []) (hi : s.inputs = []) : step s = .next s := by
  have hn := State.nextFrame_eq_none.2 hn
  simp [step, hn, hi]

/-- No RESET comes next. -/
theorem State.resetNext_false (hr : ∀ rest, s.inputs ≠ .reset :: rest) : s.resetNext = false := by
  cases h : s.resetNext with
  | false => rfl
  | true =>
    obtain ⟨rest, h⟩ := State.resetNext_iff.1 h
    exact absurd h (hr rest)

/-- What an answer that is owed keeps. -/
theorem State.answered_frame (s : State) (a : Answer) (rest : List Input) :
    (({ s with inputs := rest }).deliver a).resume.cfg = s.cfg ∧
    (({ s with inputs := rest }).deliver a).resume.work = s.work ∧
    (({ s with inputs := rest }).deliver a).resume.commit = s.commit ∧
    (({ s with inputs := rest }).deliver a).resume.bright = s.bright ∧
    (({ s with inputs := rest }).deliver a).resume.fsr = s.fsr ∧
    (({ s with inputs := rest }).deliver a).resume.cmd = s.cmd := by
  have h1 := State.resume_frame (({ s with inputs := rest }).deliver a)
  have h2 := State.deliver_frame (s := { s with inputs := rest }) a
  simp_all

/-- A late answer that reaches a block waiting for nothing. -/
theorem State.answered_late {a : Answer} {rest : List Input} (ha : s.abandoned = true) (h : s.awaiting = false) :
    (({ s with inputs := rest }).deliver a).resume = { s with abandoned := false, inputs := rest } := by
  have hr : ({ s with inputs := rest } : State).currentRequest = none := State.currentRequest_of_not_awaiting h
  rw [State.deliver_abandoned (s := { s with inputs := rest }) a ha]
  have hl : ({ s with inputs := rest } : State).release.awaiting = false := h
  rw [State.resume_of_not_awaiting hl]
  simp [State.release, hr]

/-- The step of a waiting block to which an answer comes, or of any block that accepts no frame while an abandoned request
is unanswered. -/
theorem step_answer {a : Answer} {rest : List Input} (hn : s.ctl ≠ .idle ∨ s.cmd = [])
    (hi : s.inputs = .answer a :: rest) (hw : s.awaiting = true ∨ s.abandoned = true) :
    step s = .next (({ s with inputs := rest }).deliver a).resume := by
  have h : (({ s with inputs := rest } : State).awaiting || ({ s with inputs := rest } : State).abandoned) = true := by
    simpa [State.awaiting] using hw
  rw [step_input hn hi]
  simp only [State.takeInput, State.takeAnswer, h, if_true]

end Sys2Proof.Machine
end

