-- ==== Sys2Proof/Tests/Slice0.lean ====
section
/-! SUPPORT. The model's own tests. Expected results come from 95_test_vectors.md (the vector is named) or are worked out
by hand from the rule named. The `witness_…` theorems show, for each obligation with hypotheses, a concrete state and
operands that meet all of them together. -/

namespace Sys2Proof.Tests

open Sys2Proof.Machine

-- One theorem after another: some take a second of kernel time, and many waiting at once cost a thread each.
set_option Elab.async false

/-! ## Helpers -/

/-- TESTCFG as plain parameters. -/
abbrev tp : Params := Params.testcfg

/-- An IDLE block under TESTCFG that holds one frame, with the moves `inputs` to come. -/
def holding (f : Frame) (inputs : List Input) : State := { State.reset with cmd := [f], inputs := inputs }

/-- `s` with WORK holding `m`. -/
def withWork (m : Memory) (s : State) : State := { s with work := m }

/-- Whether an outcome is a next state that passes `p`. -/
def nextIs (o : Host.Outcome State Fault Refusal) (p : State → Bool) : Bool :=
  match o with
  | .next t => p t
  | .fault _ => false
  | .refused _ => false

/-- Whether the step of a block that holds `f` enters FAULTED with FSR = `fsr`, emitting nothing. -/
def faultsWith (f : Frame) (fsr : BitVec 16) : Bool :=
  nextIs (step (holding f [])) fun t =>
    decide (t.fsr = fsr ∧ t.ctl = .faulted ∧ t.events = [] ∧ t.work = [] ∧ t.bright = 0xFF ∧ t.cmd = [])

/-- A configuration at the low end of R7: 8 columns, 8 rows, one page, the cell's linear index as its register. -/
def Params.small : Params where
  width := 8
  height := 8
  numPages := 1
  pageSize := 64
  bufLen := 64
  map := (List.range 64).map fun l => (l, 0)
  brightReset := 0x10
  fullOnValue := 0xFF

theorem small_wf : Params.small.wf := by
  refine ⟨by decide, by decide, by decide, by decide, by decide, by simp [Params.small], ?_, ?_⟩
  · intro e he
    obtain ⟨l, hl, rfl⟩ := List.mem_map.1 he
    have := List.mem_range.1 hl
    simp only [Params.small]
    omega
  · exact List.Nodup.map (fun a b h => by simpa using h) List.nodup_range

/-- The small configuration. -/
def Config.small : Config := { Params.small with ok := small_wf }

/-! ## Well-formedness: the check refuses an ill-formed term of each kind -/

theorem test_wf_loadgrid : (Instr.loadgrid [1, 2]).wf tp = false := by decide
theorem test_wf_loadpk : (Instr.loadpk (List.replicate 38 0)).wf tp = false := by decide
theorem test_wf_glyph_short : (Instr.glyph 0 [1, 2, 3, 4, 5, 6, 7]).wf tp = false := by decide
theorem test_wf_glyph_long : (Instr.glyph 0 [1, 2, 3, 4, 5, 6, 7, 8, 9]).wf tp = false := by decide

/-- A coordinate out of range is well-formed: it is a fault, not a reserved encoding (30_encoding.md R82). -/
theorem test_wf_wrcell_out_of_range : (Instr.wrcell 255 255 0).wf tp = true := by decide

/-! ## Decoding: one frame of each opcode, written out from 30_encoding.md R81 and R83 -/

theorem test_decode_clear : decode tp [0x01] = .ok .clear := by decide
theorem test_decode_wrcell : decode tp [0x02, 0x04, 0x05, 0xAA] = .ok (.wrcell 4 5 170) := by decide
theorem test_decode_rdcell : decode tp [0x03, 0x08, 0x21] = .ok (.rdcell 8 33) := by decide
theorem test_decode_loadgrid : decode Params.small (0x04 :: 0x32 :: List.replicate 63 0) =
    .ok (.loadgrid (50 :: List.replicate 63 0)) := by decide +kernel
theorem test_decode_loadpk : decode tp (0x05 :: 0x01 :: List.replicate 37 0 ++ [0x02]) =
    .ok (.loadpk (1 :: List.replicate 37 0 ++ [2])) := by decide +kernel
theorem test_decode_glyph : decode tp [0x08, 0x1A, 0xFF, 0, 0, 0, 0, 0, 0, 0x81] =
    .ok (.glyph 26 [255, 0, 0, 0, 0, 0, 0, 129]) := by decide
theorem test_decode_setgrid : decode tp [0x10] = .ok .setgrid := by decide
theorem test_decode_setbrt : decode tp [0x11, 0x33] = .ok (.setbrt 51) := by decide
theorem test_decode_push : decode tp [0x12] = .ok .push := by decide
theorem test_decode_pushslow : decode tp [0x13] = .ok .pushslow := by decide
theorem test_decode_fullon : decode tp [0x14] = .ok .fullon := by decide
theorem test_decode_rdbrt : decode tp [0x15] = .ok .rdbrt := by decide

/-- The opcode table's numbering: bit 0 is the first byte's lowest bit, operand bytes count on from it. -/
theorem test_decodeTableWord_wrcell : decodeTableWord 32 0xAA050402 = some (.wrcell 4 5 170) := by decide +kernel
theorem test_decodeTableWord_loadpk : decodeTableWord 8 0x05 = some (.loadpk (List.replicate 39 0)) := by
  decide +kernel
theorem test_decodeTableWord_reserved : decodeTableWord 8 0x06 = none := by decide +kernel

/-! ## Decode and faults (95_test_vectors.md 2.1) -/

/-- V-DC-1. -/
theorem test_fault_empty : faultsWith [] 0x0001 = true := by decide +kernel
/-- V-DC-3. -/
theorem test_fault_reserved_beats_length : faultsWith [0xFF, 0x01, 0x02] 0xFF02 = true := by decide +kernel
/-- V-DC-4. -/
theorem test_fault_hole : faultsWith [0x06] 0x0602 = true := by decide +kernel
/-- V-DC-5. -/
theorem test_fault_length : faultsWith [0x12, 0x00] 0x1201 = true := by decide +kernel
/-- V-DC-7. -/
theorem test_fault_loadpk_length : faultsWith (0x05 :: List.replicate 38 0) 0x0501 = true := by decide +kernel
/-- V-DC-9. -/
theorem test_fault_cell_column : faultsWith [0x03, 0x09, 0x00] 0x0303 = true := by decide +kernel
/-- V-DC-10. -/
theorem test_fault_cell_row : faultsWith [0x02, 0x00, 0x22, 0x01] 0x0203 = true := by decide +kernel
/-- V-DC-12. -/
theorem test_fault_glyph : faultsWith (0x08 :: 0x1B :: List.replicate 8 0) 0x0804 = true := by decide +kernel
/-- V-DC-13: 250 + 8 is 258, computed without wrap. -/
theorem test_fault_glyph_no_wrap : faultsWith (0x08 :: 0xFA :: List.replicate 8 0) 0x0804 = true := by decide +kernel
/-- V-DC-16. -/
theorem test_faulted_holds_frames : nextIs
    (step { State.reset with fsr := 0x0303, ctl := .faulted, inputs := [.frame [0x01]] })
    (fun t => decide (t.fsr = 0x0303 ∧ t.ctl = .faulted ∧ t.cmd = [[0x01]] ∧ t.events = [])) = true := by decide +kernel

/-! ## Framebuffer (95_test_vectors.md 2.2). The linear index of (x, y) is x + 9 * y. -/

/-- V-FB-5: {(0,0):1, (8,33):2}. -/
theorem test_clear : nextIs (step (withWork [(0, 1), (305, 2)] (holding [0x01] [])))
    (fun t => decide (t.work = [] ∧ t.events = [.response [0x00]] ∧ t.cmd = [])) = true := by decide +kernel
/-- V-FB-1: (4,5). -/
theorem test_wrcell : nextIs (step (holding [0x02, 0x04, 0x05, 0xAA] []))
    (fun t => decide (t.work = [(49, 0xAA)] ∧ t.events = [.response [0x00]])) = true := by decide +kernel
/-- V-FB-4. -/
theorem test_wrcell_zero : nextIs (step (withWork [(49, 0xAA)] (holding [0x02, 0x04, 0x05, 0x00] [])))
    (fun t => decide (t.work = [])) = true := by decide +kernel
/-- V-FB-2. -/
theorem test_rdcell : nextIs (step (withWork [(49, 0xAA)] (holding [0x03, 0x04, 0x05] [])))
    (fun t => decide (t.work = [(49, 0xAA)] ∧ t.events = [.response [0x00, 0xAA]])) = true := by decide +kernel
/-- V-FB-3: the corner (8,33). -/
theorem test_rdcell_corner : nextIs (step (holding [0x03, 0x08, 0x21] []))
    (fun t => decide (t.events = [.response [0x00, 0x00]])) = true := by decide +kernel
/-- R116 on 8 columns: c[10] = 50 is (2,1), c[63] = 7 is (7,7); no mirror. -/
theorem test_loadgrid : nextIs (step { State.resetOf Config.small with
      cmd := [0x04 :: (List.replicate 10 0 ++ 50 :: List.replicate 52 0 ++ [7])] })
    (fun t => decide (t.work = [(10, 50), (63, 7)] ∧ t.events = [.response [0x00]])) = true := by decide +kernel
/-- V-FB-7 and V-FB-11 in one frame: bit 0 is (8,0), bit 305 is (0,33); V-FB-14: what was there is gone. -/
theorem test_loadpk : nextIs
    (step (withWork [(30, 9)] (holding (0x05 :: 0x01 :: (List.replicate 37 0 ++ [0x02])) [])))
    (fun t => decide (t.work = [(8, 255), (297, 255)])) = true := by decide +kernel
/-- V-FB-10 and V-FB-12: bit 35 is (0,3); the bits 306..311 are padding. -/
theorem test_loadpk_padding : nextIs
    (step (holding (0x05 :: (List.replicate 4 0 ++ 0x08 :: (List.replicate 33 0 ++ [0xFC]))) []))
    (fun t => decide (t.work = [(27, 255)])) = true := by decide +kernel

/-! ## Glyph (95_test_vectors.md 2.3) -/

/-- V-GL-5: the diagonal becomes an anti-diagonal. -/
theorem test_glyph_mirror : nextIs (step (holding [0x08, 0x00, 0x01, 0x02, 0x04, 0x08, 0x10, 0x20, 0x40, 0x80] []))
    (fun t => decide (t.work = [(7, 255), (15, 255), (23, 255), (31, 255), (39, 255), (47, 255), (55, 255), (63, 255)] ∧
      t.events = [.response [0x00]])) = true := by decide +kernel
/-- V-GL-4: {(7,0):100, (8,0):100, (0,8):9}. -/
theorem test_glyph_overwrites : nextIs
    (step (withWork [(7, 100), (8, 100), (72, 9)] (holding (0x08 :: 0x00 :: List.replicate 8 0) [])))
    (fun t => decide (t.work = [(8, 100), (72, 9)])) = true := by decide +kernel

/-! ## Compositor arithmetic and the mapper (95_test_vectors.md 2.4, TESTCFG) -/

/-- V-CP-4, V-CP-6, V-CP-8, V-CP-9, V-CP-13, V-CP-14. -/
theorem test_scale : scale 128 128 = 64 ∧ scale 200 100 = 78 ∧ scale 254 254 = 253 ∧ scale 1 254 = 0 ∧
    scale 15 17 = 1 ∧ scale 15 16 = 0 := by decide

/-- The page boundary of V-CP-26 and V-CP-27. -/
theorem test_flat : flat tp 0 16 = 144 ∧ flat tp 8 16 = 152 ∧ flat tp 0 17 = 160 ∧ flat tp 8 33 = 312 := by
  decide +kernel

/-! ## Compositor commands (95_test_vectors.md 2.5) -/

/-- The cells of a payload that are not 0, with their indices. -/
def lit (buf : List Byte) : List (Nat × Byte) := (buf.zipIdx.filter fun c => c.1 != 0).map fun c => (c.2, c.1)

/-- A step's requests, a payload written as its length and its bytes that are not 0, and its responses. -/
def sent (t : State) : List (Nat × List (Nat × Byte)) × List Frame :=
  ((requestsOf t.events).filterMap (fun
      | .writeFullFrame buf => some (buf.length, lit buf)
      | .writeSinglePixel _ _ _ => none
      | .fillAll _ => none),
    responsesOf t.events)

/-- V-CP-18: WORK {(8,33):128}, answered Err(0x07); COMMIT stays. -/
theorem test_setgrid : nextIs (step (withWork [(305, 128)] (holding [0x10] [.answer (.err 0x07)])))
    (fun t => decide (sent t = ([(320, [(312, 128)])], [[0x01, 0x07]]) ∧ t.commit = [(305, 128)] ∧
      t.work = [(305, 128)] ∧ t.ctl = .idle)) = true := by decide +kernel
/-- V-CP-19: answered Err(0x42); BRIGHT = 0x80 stays. -/
theorem test_setbrt : nextIs (step (holding [0x11, 0x80] [.answer (.err 0x42)]))
    (fun t => decide (sent t = ([(320, [])], [[0x01, 0x42]]) ∧ t.bright = 0x80)) = true := by decide +kernel
/-- V-CP-25: PUSH reads COMMIT, not WORK {(4,20):77}. -/
theorem test_push_commit : nextIs (step (withWork [(184, 77)] (holding [0x12] [.answer .ok])))
    (fun t => decide (sent t = ([(320, [])], [[0x00]]))) = true := by decide +kernel
/-- V-CP-27's first cell: COMMIT {(8,16):11} is the last register of page 0 that MAP uses. -/
theorem test_push : nextIs (step { holding [0x12] [.answer .ok] with commit := [(152, 11)] })
    (fun t => decide (sent t = ([(320, [(152, 11)])], [[0x00]]) ∧ t.fb = none)) = true := by decide +kernel
/-- V-CP-21: COMMIT {(0,1):200}, answers Ok, Err(0x03). -/
theorem test_pushslow : nextIs
    (step { holding [0x13] [.answer .ok, .answer (.err 0x03)] with commit := [(9, 200)] })
    (fun t => decide (t.events = [.request (.writeSinglePixel 0 0 0), .request (.writeSinglePixel 0 1 200),
      .response [0x01, 0x03]])) = true := by decide +kernel
/-- V-CP-23. -/
theorem test_fullon : nextIs (step (holding [0x14] [.answer (.err 0x42)]))
    (fun t => decide (t.events = [.request (.fillAll 255), .response [0x01, 0x42]] ∧ t.ctl = .idle ∧ t.bright = 0xFF)) =
      true := by decide +kernel
/-- V-CP-24. -/
theorem test_rdbrt : nextIs (step (holding [0x15] []))
    (fun t => decide (t.events = [.response [0x00, 0xFF]])) = true := by decide +kernel

/-- 10_state.md R43: no answer comes, so FULLON waits. -/
theorem test_fullon_waits : nextIs (step (holding [0x14] [.quiet]))
    (fun t => decide (t.ctl = .waitFill ∧ t.inputs = [.quiet] ∧ t.events = [.request (.fillAll 255)])) = true := by
  decide +kernel
/-- 70_reset_and_hazards.md R260: RESET drops the outstanding request, and its late answer is discarded. -/
theorem test_reset_abandons : nextIs (step { State.reset with
      ctl := .waitFill, work := [(0, 1)], cmd := [[0x01]], inputs := [.reset, .answer .ok] })
    (fun t => decide (t.ctl = .idle ∧ t.work = [] ∧ t.cmd = [] ∧ t.abandoned = true ∧ t.events = []) &&
      nextIs (step t) fun u => decide (u.ctl = .idle ∧ u.abandoned = false ∧ u.events = [])) = true := by decide +kernel
/-- 10_state.md R40 and 20_memory.md R65: FULLON after such a RESET. With no answer its request is not issued; after the
abandoned request's answer it is. -/
theorem test_request_held_back :
    nextIs (step { holding [0x14] [.quiet, .answer .ok, .answer (.err 9)] with abandoned := true })
      (fun t => decide (t.ctl = .waitFill ∧ t.abandoned = true ∧ t.events = []) &&
        nextIs (step t) fun u => nextIs (step u) fun v =>
          decide (v.ctl = .idle ∧ v.abandoned = false ∧ v.events = [.request (.fillAll 255), .response [0x01, 9]])) = true := by
  decide +kernel

/-! ## HOST generators (95_test_vectors.md 2.6) -/

/-- V-HG-1 and V-HG-1b. -/
theorem test_gradient : gridCell tp (gradientGrid tp 10) 0 0 = 10 ∧ gridCell tp (gradientGrid tp 10) 8 24 = 250 ∧
    gridCell tp (gradientGrid tp 10) 8 25 = 255 ∧ gridCell tp (gradientGrid tp 300) 0 0 = 255 := by decide +kernel
/-- V-HG-2. -/
theorem test_percentage_rows : [0, 1, 2, 25, 50, 75, 99, 100].map (percentageRows tp) =
    [0, 0, 1, 9, 17, 26, 34, 34] := by decide
/-- V-HG-3: n = 3 lights columns 0, 3 and 6. -/
theorem test_everyNth : (everyNth Params.small 3).map (List.take 8) = .ok [255, 0, 0, 255, 0, 0, 255, 0] := by
  decide +kernel

/-- Three letters at rows 0, 8 and 16, each one pixel. -/
def letters : List Letter :=
  [⟨0, [1, 0, 0, 0, 0, 0, 0, 0]⟩, ⟨8, [2, 0, 0, 0, 0, 0, 0, 0]⟩, ⟨16, [0, 0, 0, 0, 0, 0, 0, 1]⟩]
/-- A table that has them for USB suspend. -/
def table : StatusTable :=
  ⟨[], [], [], letters, .literal [1, 2, 3], .literal [], .literal []⟩
/-- 45_host_generators.md R209 with 41_glyph.md R145: CLEAR, one GLYPH a letter, SETGRID; the reason picks the letters. -/
theorem test_displaySleepReason : (table.displaySleepReason .usbSuspend).frames =
    [[0x01], [0x08, 0, 1, 0, 0, 0, 0, 0, 0, 0], [0x08, 8, 2, 0, 0, 0, 0, 0, 0, 0],
      [0x08, 16, 0, 0, 0, 0, 0, 0, 0, 1], [0x10]] ∧
    table.displaySleepReason .usbSuspend ≠ table.displaySleepReason .timeout ∧
    table.sleepIcon.frames = [[0x04, 1, 2, 3]] := by decide +kernel
/-- R209 and 41_glyph.md R140: three letters that fit are a legal image, two are not. -/
theorem test_statusImage_ok : threeOrFour tp letters ∧ ¬threeOrFour tp (letters.take 2) ∧
    ¬(StatusImage.literal [1, 2, 3]).ok tp := by
  simp [threeOrFour, lettersFit, letters, StatusImage.ok, tp, Params.testcfg, Params.cells]
/-- The grid of that image, by 41_glyph.md R140: glyph pixels (0,0), (0,1) and (7,0) are cells (7,0), (7,9) and (0,16). -/
theorem test_statusImage_grid : ((StatusImage.glyphs letters).grid tp).zipIdx.filter (fun c => c.1 != 0) =
    [(255, 7), (255, 88), (255, 144)] := by decide +kernel

/-! ## The assembler (30_encoding.md R100, R101; the programs of 95_test_vectors.md) -/

theorem test_assemble_wrcell : assembleLine tp "WRCELL 8, 33, 128   ; 02 08 21 80".toList =
    .ok (some [0x02, 0x08, 0x21, 0x80]) := by decide +kernel
theorem test_assemble_glyph : assembleLine tp "GLYPH 26, [0xFF,0,0,0,0,0,0,0]".toList =
    .ok (some [0x08, 0x1A, 0xFF, 0, 0, 0, 0, 0, 0, 0]) := by decide +kernel
theorem test_assemble_frame : assembleLine tp ".frame 0xFF, 1, 2".toList = .ok (some [0xFF, 0x01, 0x02]) := by
  decide +kernel
theorem test_assemble_number_too_large : assembleLine tp "SETBRT 256".toList = .error .operands := by decide +kernel
theorem test_assemble_array_length : assembleLine tp "GLYPH 0, [1,2]".toList = .error .arrayLength := by
  decide +kernel
theorem test_assemble_comment : assembleLine tp "  ; nothing".toList = .ok none := by decide +kernel

/-! ## Reset and configuration -/

theorem test_reset_memory_wf : State.reset.work.wf ∧ State.reset.commit.wf := by decide

/-- 70_reset_and_hazards.md R261 under TESTCFG. -/
theorem test_reset : State.reset.bright = 0xFF ∧ State.reset.fsr = 0x0000 ∧ State.reset.ctl = .idle ∧
    State.reset.ready = true ∧ State.reset.faultLevel = false ∧ State.reset.side = (0x0000, false) := by decide

/-- 00_scope.md R7 and R8: a dimension below its range, a MAP that is not total, one that leaves the buffer, and one
that is not injective. -/
theorem test_boot_refuses :
    ¬({ Params.small with width := 7 } : Params).wf ∧
    ¬({ Params.small with map := (List.range 63).map fun l => (l, 0) } : Params).wf ∧
    ¬({ Params.small with bufLen := 0 } : Params).wf ∧
    ¬({ Params.small with map := (0, 0) :: (List.range 63).map fun l => (l, 0) } : Params).wf := by decide +kernel

/-- The step's one stop of its own (log 5). -/
theorem test_answer_without_request :
    step { State.reset with inputs := [.answer .ok] } = .fault .answerWithoutRequest := by rfl

/-! ## Witnesses: states and operands that meet every hypothesis of an obligation, each clause at a boundary -/

/-- WORK with its first and its last cell lit, under TESTCFG. -/
def lamp : State := { State.reset with work := [(0, 1), (305, 2)], commit := [(305, 7)] }

/-- A block whose next moves are one late answer, owed to an abandoned request, and then `a`. -/
def lateThen (a : Answer) : State := { lamp with abandoned := true, inputs := [.answer (.err 1), .answer a, .quiet] }

/-- A block waiting for the answer to pixel 3, under TESTCFG. -/
def waiting : State :=
  { State.reset with ctl := .waitPixel 3, events := [.request (State.reset.pixelRequest 3)], cmd := [[0x01]] }

/-- A FAULTED block (CELL_RANGE, WRCELL), as the last step of a run leaves it. -/
def stopped : State := { State.reset with fsr := 0x0203, ctl := .faulted }

theorem stopped_eq : stopped = State.reset.raiseFault .cellRange Opcode.wrcell.byte := rfl

theorem lamp_wf : lamp.work.wf ∧ lamp.work.within 306 ∧ lamp.commit.wf := by decide

/-- TESTCFG's table (95_test_vectors.md). -/
theorem mapCell_testcfg {x y : Nat} (hx : x < 9) (hy : y < 34) :
    mapCell tp x y = ((x + 9 * y) % 153, (x + 9 * y) / 153) := by
  have h : x + 9 * y < 306 := by omega
  simp [mapCell, tp, Params.testcfg, cellIndex, List.getD_eq_getElem?_getD, List.getElem?_range h]

theorem flat_testcfg {x y : Nat} (hx : x < 9) (hy : y < 34) :
    flat tp x y = (x + 9 * y) / 153 * 160 + (x + 9 * y) % 153 := by
  simp only [flat, mapCell_testcfg hx hy]
  rfl

theorem witness_DecodeReadsBackEveryEncodedCommand :
    (Instr.glyph 255 (List.replicate 8 255)).wf tp = true ∧ (Instr.loadpk (List.replicate 39 255)).wf tp = true := by
  decide

theorem witness_DecodedFrameIsTheOneEncoding : decode tp [0x03, 0xFF, 0xFF] = .ok (.rdcell 255 255) := by decide

theorem witness_DecodeRejectsByTheFirstFailingCheck :
    decode tp [] = .error ⟨.length, 0x00⟩ ∧ decode tp [0x16] = .error ⟨.illegalOpcode, 0x16⟩ ∧
    decode tp [0x15, 0x00] = .error ⟨.length, 0x15⟩ := by decide

theorem witness_ReservedOpcodesFaultAndNothingElseIsReserved :
    Opcode.ofByte 0x16 = none ∧ (holding [0x16, 0x01] []).ctl = .idle ∧
    (holding [0x16, 0x01] []).cmd = [0x16, 0x01] :: [] ∧
    (∀ rest, (holding [0x16, 0x01] []).inputs ≠ .reset :: rest) ∧
    (Opcode.setbrt.byte :: [0xFF]).length = Opcode.setbrt.length tp :=
  ⟨by decide, rfl, rfl, by simp [holding], by decide⟩

theorem witness_AssembledCommandDecodes :
    assembleLine tp ['P', 'U', 'S', 'H'] = .ok (some [0x12]) ∧
    assembleLine tp ['.', 'f', 'r', 'a', 'm', 'e', ' ', '6'] = .ok (some [0x06]) := by decide +kernel

theorem witness_StepRunsTheDecodedCommand :
    (holding [0x12] [.answer .ok]).ctl = .idle ∧ (holding [0x12] [.answer .ok]).cmd = [0x12] :: [] ∧
    (∀ rest, (holding [0x12] [.answer .ok]).inputs ≠ .reset :: rest) ∧ decode tp [0x12] = .ok .push :=
  ⟨rfl, rfl, by simp [holding], by decide⟩

theorem witness_StepFaultsOnARejectedFrame :
    (holding [] []).ctl = .idle ∧ (holding [] []).cmd = [] :: [] ∧
    (∀ rest, (holding [] []).inputs ≠ .reset :: rest) ∧ decode tp [] = .error ⟨.length, 0x00⟩ :=
  ⟨rfl, rfl, by simp [holding], by decide⟩

theorem witness_ClearZeroesEveryCell : lamp.work.wf ∧ 8 < lamp.cfg.width ∧ 33 < lamp.cfg.height ∧ lamp.cfg.cells ≤ 306 := by
  decide

theorem witness_ClearGivesTheResetGrid :
    lamp.work.wf ∧ lamp.work.within lamp.cfg.cells ∧ ∃ t, exec .clear lamp = .next t := ⟨by decide, by decide, _, rfl⟩

theorem witness_WrcellWritesOneCellOrFaults :
    lamp.work.wf ∧ ((8 : Byte).toNat < lamp.cfg.width ∧ (33 : Byte).toNat < lamp.cfg.height) ∧
    lamp.cfg.width ≤ (9 : Byte).toNat ∧ lamp.cfg.height ≤ (34 : Byte).toNat := by decide

theorem witness_RdcellAnswersTheCellOrFaults :
    ((8 : Byte).toNat < lamp.cfg.width ∧ (33 : Byte).toNat < lamp.cfg.height) ∧
    lamp.cfg.width ≤ (9 : Byte).toNat ∧ lamp.cfg.height ≤ (34 : Byte).toNat := by decide

theorem witness_RdcellAfterWrcell :
    lamp.work.wf ∧ (8 : Byte).toNat < lamp.cfg.width ∧ (33 : Byte).toNat < lamp.cfg.height ∧
    (0 : Byte).toNat < lamp.cfg.width ∧ (0 : Byte).toNat < lamp.cfg.height ∧
    ∃ t, exec (.wrcell 8 33 9) lamp = .next t :=
  ⟨by decide, by decide, by decide, by decide, by decide, _, exec_wrcell_in 9 (by decide) (by decide)⟩

theorem witness_LoadgridPlacesByLinearIndex :
    lamp.work.wf ∧ (List.replicate 306 (5 : Byte)).length = lamp.cfg.cells ∧ 305 < lamp.cfg.cells :=
  ⟨by decide, by rw [List.length_replicate]; rfl, by decide⟩

theorem witness_LoadpkDecodesWithTheMirror :
    lamp.work.wf ∧ (List.replicate 39 (5 : Byte)).length = lamp.cfg.pkLen ∧ 8 < lamp.cfg.width ∧ 33 < lamp.cfg.height := by
  decide

theorem witness_LoadpkLightsTheMirroredBit :
    lamp.work.wf ∧ (List.replicate 39 (5 : Byte)).length = lamp.cfg.pkLen ∧
    (∃ t, exec (.loadpk (List.replicate 39 5)) lamp = .next t) ∧ 8 < lamp.cfg.width ∧ 33 < lamp.cfg.height :=
  ⟨by decide, by decide, ⟨_, rfl⟩, by decide, by decide⟩

theorem witness_LoadpkReplacesTheWholeGrid :
    lamp.work.wf ∧ lamp.work.within lamp.cfg.cells ∧ Memory.wf [(4, 4)] ∧ Memory.within lamp.cfg.cells [(4, 4)] ∧
    (∃ t, exec (.loadpk (List.replicate 39 5)) lamp = .next t) ∧
    ∃ t, exec (.loadpk (List.replicate 39 5)) { lamp with work := [(4, 4)] } = .next t :=
  ⟨by decide, by decide, by decide, by decide, ⟨_, rfl⟩, _, rfl⟩

theorem witness_LoadpkIgnoresPadding :
    (List.replicate 38 (0 : Byte) ++ [0xFC]).length = lamp.cfg.pkLen ∧
    (List.replicate 38 (0 : Byte) ++ [0x00]).length = lamp.cfg.pkLen ∧
    ∀ l, l < lamp.cfg.cells → ((List.replicate 38 (0 : Byte) ++ [0xFC]).getD (l / 8) 0).getLsbD (l % 8) =
      ((List.replicate 38 (0 : Byte) ++ [0x00]).getD (l / 8) 0).getLsbD (l % 8) := by decide +kernel

theorem witness_LevelsEnterOnlyByWrcellOrLoadgrid :
    lamp.work.wf ∧ (∃ t, exec (.loadpk (List.replicate 39 5)) lamp = .next t) ∧
    (∀ x y v, Instr.setgrid ≠ .wrcell x y v) ∧ (∀ c, Instr.setgrid ≠ .loadgrid c) ∧
    ∃ t, exec .setgrid lamp = .next t :=
  ⟨by decide, ⟨_, rfl⟩, by simp, by simp, _, rfl⟩

theorem witness_FramebufferWritesAreIdempotent :
    lamp.work.wf ∧ ∃ t u, exec (.glyph 26 (List.replicate 8 5)) lamp = .next t ∧
      exec (.glyph 26 (List.replicate 8 5)) t = .next u :=
  ⟨by decide, _, _, exec_glyph_fits _ (by decide), exec_glyph_fits _ (by decide)⟩

theorem witness_GlyphDrawsItsBoxOrFaults :
    lamp.work.wf ∧ (List.replicate 8 (5 : Byte)).length = 8 ∧ (26 : Byte).toNat + 8 ≤ lamp.cfg.height ∧
    lamp.cfg.height < (27 : Byte).toNat + 8 := by decide

theorem witness_GlyphWritesExactlyItsBox :
    (26 : Byte).toNat + 8 ≤ lamp.cfg.height ∧ (∃ t, exec (.glyph 26 (List.replicate 8 5)) lamp = .next t) ∧
    7 < lamp.cfg.width ∧ 33 < lamp.cfg.height ∧ ¬(8 < 8 ∧ 26 ≤ 33 ∧ 33 < 26 + 8) :=
  ⟨by decide, ⟨_, exec_glyph_fits _ (by decide)⟩, by decide, by decide, by decide⟩

theorem witness_GlyphOverwritesItsBox :
    lamp.work.wf ∧ Memory.wf [(4, 4)] ∧ (26 : Byte).toNat + 8 ≤ lamp.cfg.height ∧
    (∃ t, exec (.glyph 26 (List.replicate 8 5)) lamp = .next t) ∧
    ∃ t, exec (.glyph 26 (List.replicate 8 5)) { lamp with work := [(4, 4)] } = .next t :=
  ⟨by decide, by decide, by decide, ⟨_, exec_glyph_fits _ (by decide)⟩, _, exec_glyph_fits _ (by decide)⟩

theorem witness_GlyphReadsBackMirrored :
    State.reset.work.wf ∧ (∀ a, State.reset.work.read a = 0) ∧ (List.replicate 8 (5 : Byte)).length = 8 ∧
    ∃ t, exec (.glyph 0 (List.replicate 8 5)) State.reset = .next t :=
  ⟨by decide, fun _ => rfl, by decide, _, exec_glyph_fits _ (by decide)⟩

theorem witness_ScaleLaws :
    ((1 : Byte).toNat ≤ (255 : Byte).toNat ∧ (0 : Byte).toNat ≤ (255 : Byte).toNat) ∧
    (1 : Byte).toNat * (254 : Byte).toNat < 255 ∧ ¬(15 : Byte).toNat * (17 : Byte).toNat < 255 := by decide

theorem witness_MapperGivesEachCellItsOwnByte : 8 < Config.testcfg.width ∧ 33 < Config.testcfg.height ∧
    flat tp 8 33 = flat tp 8 33 := by decide

theorem witness_ComposeOrderIsUnobservable :
    (composeWrites tp lamp.commit 9).reverse.Perm (composeWrites tp lamp.commit 9) ∧ 8 < Config.testcfg.width ∧
    33 < Config.testcfg.height :=
  ⟨List.reverse_perm _, by decide, by decide⟩

theorem waiting_inv : waiting.Inv := by
  constructor <;>
    simp [waiting, State.reset, Memory.wf, Memory.within, State.faultLevel, State.currentRequest, Config.testcfg,
      Params.testcfg, Params.cells]
  rfl

/-- A block that waits with its full frame held back, and the abandoned request's answer to come. -/
def waitingFrame : State :=
  { State.reset with ctl := .waitFrame, fb := some (composeFrame tp [] 0xFF), abandoned := true, inputs := [.answer .ok] }

theorem waitingFrame_inv : waitingFrame.Inv where
  work_wf := by decide
  work_within := by simp [waitingFrame, State.reset, Memory.within]
  commit_wf := by decide
  commit_within := by simp [waitingFrame, State.reset, Memory.within]
  fb_wf := by
    intro fb h
    have h : composeFrame tp [] 0xFF = fb := Option.some.inj h
    rw [← h]
    exact ⟨composeFrame_wf _ _ _, composeFrame_within Config.testcfg _ _⟩
  fb_composed := fun _ h => (Option.some.inj h).symm
  fb_life := by simp [waitingFrame]
  faulted_iff := by decide
  fsr_legal := .inl rfl
  pixel_lt := by simp [waitingFrame]
  request_last := by simp [waitingFrame]

/-- For the composed FB, and for a step that sends a payload. -/
theorem witness_UnmappedBytesAreZeroInEveryPush :
    (∀ x y, x < tp.width → y < tp.height → flat tp x y ≠ 153) ∧
    (waitingFrame.Inv ∧ ∃ t buf, step waitingFrame = .next t ∧ t.events = waitingFrame.events ++ [.request (.writeFullFrame buf)]) ∧
    153 < waitingFrame.cfg.bufLen :=
  ⟨fun x y hx hy => by rw [flat_testcfg hx hy]; omega, ⟨waitingFrame_inv, _, _, rfl, rfl⟩, by decide⟩

/-- One late answer, then the answer to the command's own request: of PUSH, SETGRID, SETBRT and FULLON. -/
theorem witness_PushSendsOneComposedFrame :
    [Answer.err 1].length = (lateThen (.err 7)).abandoned.toNat ∧
    (lateThen (.err 7)).inputs = [Answer.err 1].map .answer ++ .answer (.err 7) :: [.quiet] ∧
    (lateThen .ok).inputs = [Answer.err 1].map .answer ++ .answer .ok :: [.quiet] := ⟨rfl, rfl, rfl⟩

theorem witness_SetgridCommitsThenPushes :
    (lateThen .ok).commit.wf ∧ [Answer.err 1].length = (lateThen .ok).abandoned.toNat ∧
    (lateThen .ok).inputs = [Answer.err 1].map .answer ++ .answer .ok :: [.quiet] := ⟨by decide, rfl, rfl⟩

theorem witness_SetbrtSetsThenPushes :
    ([] : List Answer).length = (holding [0x11, 0x80] [.answer .ok]).abandoned.toNat ∧
    (holding [0x11, 0x80] [.answer .ok]).inputs = ([] : List Answer).map .answer ++ .answer .ok :: [] := ⟨rfl, rfl⟩

theorem witness_FailedPushKeepsTheNewStateForRetry :
    (lateThen (.err 7)).commit.wf ∧ (Instr.setbrt 255 = .setgrid ∨ ∃ b, Instr.setbrt 255 = .setbrt b) ∧
    [Answer.err 1].length = (lateThen (.err 7)).abandoned.toNat ∧
    (lateThen (.err 7)).inputs = [Answer.err 1].map .answer ++ .answer (.err 7) :: [.quiet] :=
  ⟨by decide, .inr ⟨_, rfl⟩, rfl, rfl⟩

/-- All 306 pixels answered Ok, and an Err at the last one. -/
theorem witness_PushslowSendsPixelsInOrderUntilAFailure :
    (∃ s : State, ([] : List Answer).length = s.abandoned.toNat ∧
      s.inputs = ([] : List Answer).map .answer ++ (List.replicate s.cfg.cells (.answer .ok) ++ [])) ∧
    ∃ s : State, [Answer.ok].length = s.abandoned.toNat ∧ 305 < s.cfg.cells ∧
      s.inputs = [Answer.ok].map .answer ++ (List.replicate 305 (.answer .ok) ++ .answer (.err 3) :: []) :=
  ⟨⟨{ State.reset with inputs := List.replicate 306 (.answer .ok) }, rfl, (List.append_nil _).symm⟩,
    { State.reset with
      abandoned := true, inputs := .answer .ok :: (List.replicate 305 (.answer .ok) ++ [.answer (.err 3)]) },
    rfl, by decide, rfl⟩

theorem witness_FullonFillsAndKeepsNoMode :
    [Answer.err 1].length = (lateThen (.err 7)).abandoned.toNat ∧
    (lateThen (.err 7)).inputs = [Answer.err 1].map .answer ++ .answer (.err 7) :: [.quiet] := ⟨rfl, rfl⟩

/-- The abandoned request's answer comes and no other; and none comes, so that the request is held back. -/
theorem witness_TransportCommandsWaitForTheirAnswer :
    ({ lamp with abandoned := true, inputs := [.answer .ok, .reset] } : State).commit.wf ∧
    ([Answer.ok].length + false.toNat = true.toNat ∧
      ({ lamp with abandoned := true, inputs := [.answer .ok, .reset] } : State).inputs =
        [Answer.ok].map .answer ++ [.reset]) ∧
    (([] : List Answer).length + true.toNat = true.toNat ∧
      ({ lamp with abandoned := true, inputs := [.reset] } : State).inputs = ([] : List Answer).map .answer ++ [.reset]) ∧
    ∀ a rest', [Input.reset] ≠ .answer a :: rest' := ⟨by decide, ⟨rfl, rfl⟩, ⟨rfl, rfl⟩, by simp⟩

/-- With the first request held back, and at the last pixel. -/
theorem witness_PushslowWaitsAtItsPixel :
    (∃ s : State, 0 < s.cfg.cells ∧ ([] : List Answer).length + true.toNat = s.abandoned.toNat ∧ (true = true → 0 = 0) ∧
      s.inputs = ([] : List Answer).map .answer ++ (List.replicate 0 (.answer .ok) ++ [])) ∧
    ∃ s : State, 305 < s.cfg.cells ∧ ([] : List Answer).length + false.toNat = s.abandoned.toNat ∧
      (false = true → 305 = 0) ∧
      s.inputs = ([] : List Answer).map .answer ++ (List.replicate 305 (.answer .ok) ++ [.quiet]) ∧
      ∀ a rest', [Input.quiet] ≠ .answer a :: rest' :=
  ⟨⟨{ State.reset with abandoned := true }, by decide, rfl, fun _ => rfl, rfl⟩,
    { State.reset with inputs := List.replicate 305 (.answer .ok) ++ [.quiet] },
    by decide, rfl, by simp, rfl, by simp⟩

/-- Two blocks that differ in WORK, FSR, what they emitted and what is to come. -/
theorem witness_PushPayloadDependsOnDisplayStateAlone :
    ({ lamp with work := [], fsr := 0x0203, inputs := [.answer .ok] } : State).cfg = lamp.cfg ∧
    ({ lamp with work := [], fsr := 0x0203, inputs := [.answer .ok] } : State).bright = lamp.bright ∧
    ∀ x y, ({ lamp with work := [], fsr := 0x0203, inputs := [.answer .ok] } : State).readCommit x y =
      lamp.readCommit x y := ⟨rfl, rfl, fun _ _ => rfl⟩

/-- A command, a step that accepts none of the two, and a step that stops. -/
theorem witness_WorkIsInvisibleUntilSetgrid :
    (Instr.push ≠ .setgrid ∧ ∀ x y, Instr.push ≠ .rdcell x y) ∧
    ((∀ f held i, waiting.ctl = .idle → waiting.cmd = f :: held → decode tp f = .ok i →
      i ≠ .setgrid ∧ ∀ x y, i ≠ .rdcell x y) ∧ ∃ t, step { waiting with inputs := [.answer .ok] } = .next t) ∧
    step { State.reset with inputs := [.answer .ok] } = .fault .answerWithoutRequest :=
  ⟨by simp, ⟨fun _ _ _ h => absurd h (by decide), _, rfl⟩, rfl⟩

theorem witness_EveryStepKeepsTheStateSound :
    waiting.Inv ∧ ∃ t, step waiting = .next t := ⟨waiting_inv, _, rfl⟩

theorem witness_ConfigurationIsConstant : ∃ t, step (holding [0x02, 0, 0, 1] []) = .next t := ⟨_, rfl⟩

/-- A configuration that meets every condition, and one that breaks each. -/
theorem witness_BootAcceptsExactlyTheLegalConfigurations :
    ((8 ≤ tp.width ∧ tp.width ≤ 256 ∧ 8 ≤ tp.height ∧ tp.height ≤ 256 ∧ 1 ≤ tp.numPages ∧ 1 ≤ tp.pageSize ∧
      1 ≤ tp.bufLen ∧ tp.map.length = tp.cells ∧
      (∀ x y, x < tp.width → y < tp.height → (mapCell tp x y).2 < tp.numPages ∧ (mapCell tp x y).1 < tp.pageSize ∧
        (mapCell tp x y).2 * tp.pageSize + (mapCell tp x y).1 < tp.bufLen) ∧
      (∀ x y x' y', x < tp.width → y < tp.height → x' < tp.width → y' < tp.height →
        mapCell tp x y = mapCell tp x' y' → x = x' ∧ y = y')) ∧
    ({ tp with width := 7 } : Params).width < 8 ∧ 256 < ({ tp with width := 257 } : Params).width ∧
    ({ tp with height := 7 } : Params).height < 8 ∧ 256 < ({ tp with height := 257 } : Params).height ∧
    ({ tp with numPages := 0 } : Params).numPages = 0 ∧ ({ tp with pageSize := 0 } : Params).pageSize = 0 ∧
    ({ tp with bufLen := 0 } : Params).bufLen = 0 ∧ ({ tp with map := [] } : Params).map.length ≠ tp.cells ∧
    ({ tp with numPages := 1 } : Params).numPages ≤ (mapCell tp 8 33).2 ∧
    ({ tp with pageSize := 152 } : Params).pageSize ≤ (mapCell tp 8 33).1 ∧
    ({ tp with bufLen := 1 } : Params).bufLen ≤ (mapCell tp 8 33).2 * tp.pageSize + (mapCell tp 8 33).1 ∧
    mapCell { tp with map := List.replicate 306 (0, 0) } 0 0 =
      mapCell { tp with map := List.replicate 306 (0, 0) } 1 0) := by
  refine ⟨⟨by decide, by decide, by decide, by decide, by decide, by decide, by decide, Params.testcfg_wf.2.2.2.2.2.1,
    ?_, ?_⟩, by decide, by decide, by decide, by decide, rfl, rfl, rfl, by decide, ?_, ?_, ?_, rfl⟩
  · intro x y hx hy
    have hx : x < 9 := hx
    have hy : y < 34 := hy
    rw [mapCell_testcfg hx hy]
    simp only [tp, Params.testcfg]
    omega
  · intro x y x' y' hx hy hx' hy' h
    have hx : x < 9 := hx
    have hy : y < 34 := hy
    have hx' : x' < 9 := hx'
    have hy' : y' < 34 := hy'
    rw [mapCell_testcfg hx hy, mapCell_testcfg hx' hy', Prod.mk.injEq] at h
    omega
  all_goals
    rw [mapCell_testcfg (by decide) (by decide)]
    try decide

theorem witness_ResetRestoresEveryElement :
    ({ waiting with inputs := [.reset, .answer .ok] } : State).inputs = .reset :: [.answer .ok] := rfl

/-- A step for each clause: COMMIT, BRIGHT, FSR, FB (SETGRID and SETBRT, no answer yet), WORK, and FB and CTL by an
answer. -/
theorem witness_EachElementHasItsOwnWriters :
    (∀ rest, ({ lamp with cmd := [[0x10]] } : State).inputs ≠ .reset :: rest) ∧
    (∃ t, step { lamp with cmd := [[0x10]] } = .next t ∧ t.fb ≠ none) ∧
    (∃ t, step { lamp with cmd := [[0x11, 0x80]] } = .next t ∧ t.bright ≠ lamp.bright) ∧
    (∃ t, step { lamp with cmd := [[0x06]] } = .next t ∧ t.fsr ≠ lamp.fsr) ∧
    (∃ t, step { lamp with cmd := [[0x01]] } = .next t ∧ t.work ≠ lamp.work) ∧
    ∃ t, step { waitingFrame with abandoned := false } = .next t ∧ t.fb = none ∧ waitingFrame.fb ≠ none ∧
      t.ctl ≠ waitingFrame.ctl :=
  ⟨by simp [lamp, State.reset], ⟨_, rfl, Option.some_ne_none _⟩, ⟨_, rfl, by decide +kernel⟩, ⟨_, rfl, by decide⟩,
    ⟨_, rfl, by decide +kernel⟩, _, rfl, rfl, by simp [waitingFrame], by decide⟩

theorem witness_FaultEntryChangesOnlyFsrAndCtl :
    ∃ t, step (holding [0x03, 0x09, 0x00] []) = .next t ∧ (holding [0x03, 0x09, 0x00] []).ctl ≠ .faulted ∧
      t.ctl = .faulted := ⟨_, rfl, by decide, rfl⟩

theorem witness_FaultedUntilReset :
    stopped.ctl = .faulted ∧
    (∀ rest, ({ stopped with inputs := [.frame [0x12]] } : State).inputs ≠ .reset :: rest) ∧
    ∃ t, step { stopped with inputs := [.frame [0x12]] } = .next t := ⟨rfl, by simp, _, rfl⟩

theorem stopped_inv : stopped.Inv := by
  constructor <;>
    simp [stopped_eq, Memory.wf, Memory.within, State.currentRequest, State.reset]
  exact .inr ⟨_, _, rfl⟩

theorem witness_FaultLevelFallsOnlyByReset :
    (stopped.Inv ∧ (∃ t, step stopped = .next t) ∧ stopped.faultLevel = true) ∧
    (waiting.Inv ∧ waiting.ctl ≠ .faulted) ∧ ∃ t, step (holding [0x06] []) = .next t ∧ t.ctl = .faulted :=
  ⟨⟨stopped_inv, ⟨_, rfl⟩, by decide⟩, ⟨waiting_inv, by decide⟩, _, rfl, rfl⟩

theorem witness_WaitingBlockOnlyHoldsFrames :
    waiting.awaiting = true ∧
    (∀ rest, ({ waiting with inputs := [.frame []] } : State).inputs ≠ .reset :: rest) ∧
    ∀ a rest, ({ waiting with inputs := [.frame []] } : State).inputs ≠ .answer a :: rest := ⟨rfl, by simp, by simp⟩

/-- Each of the four ways a command's last answer comes, and an Ok at pixel 304 with and without a further answer. -/
theorem witness_AnswerEndsTheWaitingCommand :
    ({ waiting with inputs := [.answer (.err 9)] } : State).abandoned = false ∧
    ({ waiting with inputs := [.answer (.err 9)] } : State).inputs = .answer (.err 9) :: [] ∧
    ((∃ k e, waiting.ctl = .waitPixel k ∧ Answer.err 9 = .err e) ∧
      (∃ k, ({ waiting with ctl := .waitPixel 305 } : State).ctl = .waitPixel k ∧ waiting.cfg.cells ≤ k + 1) ∧
      ({ waiting with ctl := .waitFrame } : State).ctl = .waitFrame ∧
      ({ waiting with ctl := .waitFill } : State).ctl = .waitFill) ∧
    ({ waiting with ctl := .waitPixel 304 } : State).ctl = .waitPixel 304 ∧ 304 + 1 < waiting.cfg.cells ∧
    (∀ a' rest', [Input.reset] ≠ .answer a' :: rest') ∧ [Input.answer .ok] = .answer .ok :: [] :=
  ⟨rfl, rfl, ⟨⟨3, 9, rfl, rfl⟩, ⟨305, rfl, by decide⟩, rfl, rfl⟩, rfl, by decide, by simp, rfl⟩

/-- The late answer at a waiting block, with and without a further answer, and at an idle one that holds no frame. -/
theorem witness_LateAnswerIsDiscarded :
    waitingFrame.abandoned = true ∧ waitingFrame.inputs = .answer .ok :: [] ∧ waitingFrame.ctl ≠ .idle ∧
    (∀ a' rest', ([] : List Input) ≠ .answer a' :: rest') ∧
    (({ State.reset with abandoned := true } : State).awaiting = false ∧ State.reset.cmd = []) ∧
    waitingFrame.awaiting = true ∧
    ({ waitingFrame with inputs := [.answer .ok, .answer .ok] } : State).inputs = .answer .ok :: .answer .ok :: [] :=
  ⟨rfl, rfl, by decide, by simp, ⟨rfl, rfl⟩, rfl, rfl⟩

theorem witness_HeldFramesAreNotLostOrReordered :
    (∀ rest, ({ waiting with inputs := [.frame [0x12]] } : State).inputs ≠ .reset :: rest) ∧
    (∃ t, step { waiting with inputs := [.frame [0x12]] } = .next t) ∧
    ∃ t, step (holding [0x15] []) = .next t := ⟨by simp, ⟨_, rfl⟩, _, rfl⟩

/-- A frame accepted with its answer, one that faults, and an answer that ends a command. -/
theorem witness_EveryAcceptedFrameIsAnsweredOnce :
    (∀ rest, (holding [0x14] [.answer .ok]).inputs ≠ .reset :: rest) ∧
    (∃ t, step (holding [0x14] [.answer .ok]) = .next t) ∧ (∃ t, step (holding [0x06] []) = .next t) ∧
    ∃ t, step { waiting with inputs := [.answer (.err 9)] } = .next t :=
  ⟨by simp [holding], ⟨_, rfl⟩, ⟨_, rfl⟩, _, rfl⟩

/-- A step that discards a late answer and issues the request held back, and a RESET at a waiting block. -/
theorem witness_RequestsAndAnswersBalance :
    (waitingFrame.Inv ∧ ∃ t, step waitingFrame = .next t) ∧ (waiting.Inv ∧ ∃ t, step waiting = .next t) :=
  ⟨⟨waitingFrame_inv, _, rfl⟩, waiting_inv, _, rfl⟩

theorem witness_GradientGrowsDownTheGrid : 8 < tp.width ∧ 32 < 33 ∧ 33 < tp.height := by decide

theorem witness_PercentageLightsRowsFromTheBottom :
    (0 : Byte).toNat ≤ 100 ∧ (100 : Byte).toNat ≤ 100 ∧ 100 < (101 : Byte).toNat := by decide

theorem witness_EveryNthLightsItsColumns : 1 ≤ 1 ∧ tp.width - 1 < 9 ∧ 1 ≤ 9 := by decide

end Sys2Proof.Tests
end

/-! The configuration check of `boot` in the spec's own words (00_scope.md R7, R8). `Params.wf` speaks of the entries of the
table, R8 of the cells of the grid: with one entry a cell, the two say the same. -/

namespace Sys2Proof.Machine

variable {p : Params}

/-! ## The table by cell -/

theorem mapCell_eq_getElem {x y : Nat} (h : cellIndex p x y < p.map.length) :
    mapCell p x y = p.map[cellIndex p x y] := by
  simp [mapCell, h]

theorem mapCell_mod_div {l : Nat} (h : l < p.map.length) : mapCell p (l % p.width) (l / p.width) = p.map[l] := by
  simp [mapCell, cellIndex_mod_div, h]

/-- A full table has an entry for every cell of the grid (log 8). -/
theorem cellIndex_lt_map_length (hlen : p.map.length = p.cells) {x y : Nat} (hx : x < p.width) (hy : y < p.height) :
    cellIndex p x y < p.map.length :=
  hlen ▸ cellIndex_lt hx hy

/-- With one entry a cell, the entries of the table are the values of MAP over the grid. -/
theorem mem_map_iff_mapCell (hlen : p.map.length = p.cells) {e : Nat × Nat} :
    e ∈ p.map ↔ ∃ x y, x < p.width ∧ y < p.height ∧ mapCell p x y = e := by
  constructor
  · intro he
    obtain ⟨l, hl, rfl⟩ := List.mem_iff_getElem.1 he
    have hcells : l < p.cells := hlen ▸ hl
    exact ⟨_, _, mod_lt_width hcells, div_lt_height hcells, mapCell_mod_div hl⟩
  · rintro ⟨x, y, hx, hy, rfl⟩
    rw [mapCell_eq_getElem (cellIndex_lt_map_length hlen hx hy)]
    exact List.getElem_mem _

/-- With one entry a cell, the table repeats no entry exactly when MAP is injective on the grid (R8 (b)). -/
theorem map_nodup_iff_mapCell_injective (hlen : p.map.length = p.cells) :
    p.map.Nodup ↔ ∀ x y x' y', x < p.width → y < p.height → x' < p.width → y' < p.height →
      mapCell p x y = mapCell p x' y' → x = x' ∧ y = y' := by
  constructor
  · intro hnd x y x' y' hx hy hx' hy' h
    rw [mapCell_eq_getElem (cellIndex_lt_map_length hlen hx hy),
      mapCell_eq_getElem (cellIndex_lt_map_length hlen hx' hy')] at h
    exact cellIndex_inj hx hx' (hnd.getElem_inj_iff.1 h)
  · intro hinj
    refine List.nodup_iff_injective_get.2 fun ⟨l, hl⟩ ⟨l', hl'⟩ h => ?_
    have hcells : l < p.cells := hlen ▸ hl
    have hcells' : l' < p.cells := hlen ▸ hl'
    have hmap : mapCell p (l % p.width) (l / p.width) = mapCell p (l' % p.width) (l' / p.width) := by
      rw [mapCell_mod_div hl, mapCell_mod_div hl']
      exact h
    obtain ⟨hmod, hdiv⟩ := hinj _ _ _ _ (mod_lt_width hcells) (div_lt_height hcells) (mod_lt_width hcells')
      (div_lt_height hcells') hmap
    have hll : l = l' := by rw [← cellIndex_mod_div (p := p) l, hmod, hdiv, cellIndex_mod_div]
    exact Fin.ext hll

/-- The block's check, with MAP's two conditions over the cells of the grid as R8 states them. -/
theorem wf_iff_mapCell : p.wf ↔
    8 ≤ p.width ∧ p.width ≤ 256 ∧ 8 ≤ p.height ∧ p.height ≤ 256 ∧ 1 ≤ p.numPages ∧ 1 ≤ p.pageSize ∧ 1 ≤ p.bufLen ∧
      p.map.length = p.cells ∧
      (∀ x y, x < p.width → y < p.height → (mapCell p x y).2 < p.numPages ∧ (mapCell p x y).1 < p.pageSize ∧
        (mapCell p x y).2 * p.pageSize + (mapCell p x y).1 < p.bufLen) ∧
      (∀ x y x' y', x < p.width → y < p.height → x' < p.width → y' < p.height →
        mapCell p x y = mapCell p x' y' → x = x' ∧ y = y') := by
  constructor
  · rintro ⟨⟨hw, hw'⟩, ⟨hh, hh'⟩, hnp, hps, hbl, hlen, hrange, hnd⟩
    exact ⟨hw, hw', hh, hh', hnp, hps, hbl, hlen,
      fun x y hx hy => hrange _ ((mem_map_iff_mapCell hlen).2 ⟨x, y, hx, hy, rfl⟩),
      (map_nodup_iff_mapCell_injective hlen).1 hnd⟩
  · rintro ⟨hw, hw', hh, hh', hnp, hps, hbl, hlen, hrange, hinj⟩
    refine ⟨⟨hw, hw'⟩, ⟨hh, hh'⟩, hnp, hps, hbl, hlen, fun e he => ?_,
      (map_nodup_iff_mapCell_injective hlen).2 hinj⟩
    obtain ⟨x, y, hx, hy, rfl⟩ := (mem_map_iff_mapCell hlen).1 he
    exact hrange x y hx hy

/-! ## The two answers of boot -/

theorem boot_of_wf (h : p.wf) : boot p = .next (State.resetOf { p with ok := h }) := dif_pos h

theorem boot_of_not_wf (h : ¬ p.wf) : boot p = .refused .configuration := dif_neg h

/-- Settles O44: the check of `boot` is R7 and R8 cell by cell (`wf_iff_mapCell`), and each refusing clause breaks one of its
conditions. -/
theorem bootAcceptsExactlyTheLegalConfigurations : Obligations.BootAcceptsExactlyTheLegalConfigurations := by
  refine fun p => ⟨fun hlegal => ?_, fun hillegal => boot_of_not_wf fun hwf => ?_⟩
  · have hwf : p.wf := wf_iff_mapCell.2 hlegal
    exact ⟨{ p with ok := hwf }, rfl, boot_of_wf hwf⟩
  · obtain ⟨hw, hw', hh, hh', hnp, hps, hbl, hlen, hrange, hinj⟩ := wf_iff_mapCell.1 hwf
    obtain h | h | h | h | h | h | h | h | ⟨x, y, hx, hy, h⟩ | ⟨x, y, x', y', hx, hy, hx', hy', hmap, hne⟩ := hillegal
    · exact Nat.not_lt.2 hw h
    · exact Nat.not_lt.2 hw' h
    · exact Nat.not_lt.2 hh h
    · exact Nat.not_lt.2 hh' h
    · exact Nat.ne_of_gt hnp h
    · exact Nat.ne_of_gt hps h
    · exact Nat.ne_of_gt hbl h
    · exact h hlen
    · have := hrange x y hx hy
      omega
    · exact hne (hinj x y x' y' hx hy hx' hy' hmap)

end Sys2Proof.Machine

/-! The invariant of the block's state (10_state.md R20 to R28, R43; 42_compositor.md R162): each shared operation keeps it,
so each command and each step does. -/

namespace Sys2Proof.Machine

variable {s t : State} {i : Instr} {a : Answer}

/-! ## What the invariant says in one CTL state -/

/-- FB does not exist but in WAIT_FRAME (R28). -/
theorem State.Inv.fb_none (h : s.Inv) (hc : s.ctl ≠ .waitFrame) : s.fb = none := by
  cases hfb : s.fb with
  | none => rfl
  | some fb => exact absurd (h.fb_life.1 (by simp [hfb])) hc

/-- FAULT is deasserted but in FAULTED (R26). -/
theorem State.Inv.faultLevel_false (h : s.Inv) (hc : s.ctl ≠ .faulted) : s.faultLevel = false :=
  Bool.eq_false_iff.2 fun hl => hc (h.faulted_iff.2 hl)

theorem State.not_faulted_of_awaiting (hw : s.awaiting = true) : s.ctl ≠ .faulted := by
  intro hc
  simp [State.awaiting, hc] at hw

/-- A waiting block has the one request it waits for (R43). -/
theorem State.Inv.currentRequest_isSome (h : s.Inv) (hw : s.awaiting = true) : s.currentRequest.isSome = true := by
  obtain hc | hc | ⟨k, hc⟩ := s.awaiting_iff.1 hw
  · simpa [State.currentRequest, hc] using h.fb_life.2 hc
  · simp [State.currentRequest, hc]
  · simp [State.currentRequest, hc]

/-! ## The shared operations keep it -/

/-- The held frames and the moves to come are no part of it. -/
theorem State.Inv.ports (h : s.Inv) (cmd : List Frame) (inputs : List Input) :
    ({ s with cmd := cmd, inputs := inputs } : State).Inv :=
  ⟨h.work_wf, h.work_within, h.commit_wf, h.commit_within, h.fb_wf, h.fb_composed, h.fb_life, h.faulted_iff,
    h.fsr_legal, h.pixel_lt, h.request_last⟩

/-- RESET establishes it, from every state (70_reset_and_hazards.md R261). -/
theorem State.assertReset_inv (s : State) : s.assertReset.Inv := by
  constructor <;> simp [Memory.wf, Memory.within, State.faultLevel, State.currentRequest]

theorem State.Inv.writeWork {w : List (Nat × Byte)} (h : s.Inv) (hw : GridWrites s.cfg.toParams w) :
    (s.writeWork w).Inv :=
  { h with
    work_wf := Memory.wf_writeAll h.work_wf
    work_within := Memory.within_writeAll h.work_within hw }

/-- A response follows no request that awaits its answer: the block that sends it waits for nothing (R38, R43). -/
theorem State.Inv.respond (h : s.Inv) (hw : s.awaiting = false) (b : Frame) : (s.respond b).Inv :=
  { h with
    request_last := fun _ r hr => by
      have hnone : (s.respond b).currentRequest = none := State.currentRequest_of_not_awaiting hw
      simp [hnone] at hr }

theorem State.Inv.raiseFault (h : s.Inv) (hc : s.ctl = .idle) (cause : Cause) (opcode : Byte) :
    (s.raiseFault cause opcode).Inv :=
  { h with
    fb_life := by simp [h.fb_none (by simp [hc])]
    faulted_iff := by simp
    fsr_legal := .inr ⟨cause, opcode, rfl⟩
    pixel_lt := by simp
    request_last := by simp [State.currentRequest] }

/-- The command in progress ends: FB goes with WAIT_FRAME. -/
theorem State.Inv.finish (h : s.Inv) (hw : s.awaiting = true) (a : Answer) : (s.finish a).Inv :=
  { h with
    fb_wf := by simp
    fb_composed := by simp
    fb_life := by simp
    faulted_iff := by
      have hl : (s.finish a).faultLevel = false := h.faultLevel_false (State.not_faulted_of_awaiting hw)
      simp [hl]
    pixel_lt := by simp
    request_last := by simp [State.currentRequest] }

/-- The request that was held back is the last thing emitted. -/
theorem State.Inv.release (h : s.Inv) : s.release.Inv :=
  { h with
    request_last := fun _ r hr => by
      have hr : s.currentRequest = some r := hr
      simp [hr] }

/-- A command enters a WAIT state: FB is composed if the state is WAIT_FRAME, and the request is the one the state stands
for (10_state.md R27, R28). -/
theorem State.Inv.issue {c : Ctl} {r : Request} {fb : Option Memory} (h : s.Inv) (hc : s.ctl ≠ .faulted)
    (hfb : ∀ m, fb = some m → m = composeFrame s.cfg.toParams s.commit s.bright)
    (hlife : fb.isSome = true ↔ c = .waitFrame) (hwait : c ≠ .faulted) (hk : ∀ k, c = .waitPixel k → k < s.cfg.cells)
    (hr : (({ s with fb := fb }).issue c r).currentRequest = some r) : (({ s with fb := fb }).issue c r).Inv :=
  { h with
    fb_wf := fun m hm => hfb m hm ▸ ⟨composeFrame_wf _ _ _, composeFrame_within _ _ _⟩
    fb_composed := hfb
    fb_life := hlife
    faulted_iff := by
      have hl : (({ s with fb := fb }).issue c r).faultLevel = false := h.faultLevel_false hc
      simp [hl, hwait]
    pixel_lt := hk
    request_last := fun hn r' hr' => by
      have hn : s.abandoned = false := hn
      obtain rfl : r = r' := Option.some.inj (hr.symm.trans hr')
      simp [hn] }

/-- PUSHSLOW waits at a pixel of the grid (R27). -/
theorem State.Inv.issuePixel {k : Nat} (h : s.Inv) (hf : s.ctl ≠ .faulted) (hw : s.ctl ≠ .waitFrame)
    (hk : k < s.cfg.cells) : (s.issuePixel k).Inv := by
  have hfb := h.fb_none hw
  exact h.issue (c := .waitPixel k) (r := s.pixelRequest k) (fb := s.fb) hf (by simp [hfb]) (by simp [hfb]) (by simp)
    (by simp [hk]) rfl

/-! ## Answers keep it -/

theorem State.Inv.deliver (h : s.Inv) (ho : s.awaiting = true ∨ s.abandoned = true) (a : Answer) :
    (s.deliver a).Inv := by
  obtain hw | hab := ho
  · obtain ⟨-, hd⟩ | ⟨-, hd, -⟩ | ⟨-, k, hc, -, hk, hd⟩ := State.deliver_cases a hw <;> rw [hd]
    · exact h.release
    · exact h.finish hw a
    · exact h.issuePixel (by simp [hc]) (by simp [hc]) hk
  · rw [State.deliver_abandoned a hab]
    exact h.release

theorem State.Inv.resume (h : s.Inv) : s.resume.Inv :=
  State.resume_induct (P := State.Inv) (fun u a rest _ hw hu => (hu.ports u.cmd rest).deliver (.inl hw) a) h

/-! ## Commands keep it -/

/-- What a pushing command composes from is sound, and IDLE. -/
theorem State.Inv.pushedFrom {u : State} (h : s.Inv) (hc : s.ctl = .idle) (hu : PushedFrom s i u) :
    u.Inv ∧ u.ctl = .idle := by
  have hfb := h.fb_none (by simp [hc])
  cases hu with
  | push => exact ⟨h, hc⟩
  | setgrid =>
    exact ⟨{ h with
      commit_wf := Memory.wf_writeAll h.commit_wf
      commit_within := Memory.within_writeAll h.commit_within (gridWrites_setgrid _ _)
      fb_composed := by simp [hfb]
      request_last := by simp [State.currentRequest, hc] }, hc⟩
  | setbrt b =>
    exact ⟨{ h with
      fb_composed := by simp [hfb]
      request_last := by simp [State.currentRequest, hc] }, hc⟩

/-- push() before its wait (42_compositor.md R166). -/
theorem State.Inv.issueFrame (h : s.Inv) (hc : s.ctl = .idle) :
    (({ s with fb := some (composeFrame s.cfg.toParams s.commit s.bright) }).issue .waitFrame
      (.writeFullFrame (framePayload s.cfg.toParams (composeFrame s.cfg.toParams s.commit s.bright)))).Inv :=
  h.issue (by simp [hc]) (fun _ hm => (Option.some.inj hm).symm) (by simp) (by simp) (by simp) rfl

/-- FULLON before its wait (R174). -/
theorem State.Inv.issueFill (h : s.Inv) (hc : s.ctl = .idle) :
    (s.issue .waitFill (.fillAll s.cfg.fullOnValue)).Inv := by
  have hfb := h.fb_none (by simp [hc])
  exact h.issue (c := .waitFill) (r := .fillAll s.cfg.fullOnValue) (fb := s.fb) (by simp [hc]) (by simp [hfb])
    (by simp [hfb]) (by simp) (by simp) rfl

/-- A grid has a cell: PUSHSLOW has a pixel 0. -/
theorem cells_pos (cfg : Config) : 0 < cfg.cells := by
  obtain ⟨⟨hw, -⟩, ⟨hh, -⟩, -⟩ := cfg.ok
  exact Nat.mul_pos (by omega) (by omega)

/-- The block runs a command only in IDLE (R36). -/
theorem State.Inv.of_exec (h : s.Inv) (hc : s.ctl = .idle) (he : exec i s = .next t) : t.Inv := by
  have hw : s.awaiting = false := s.not_awaiting_iff.2 (.inl hc)
  obtain ⟨w, hgrid, rfl⟩ | ⟨b, -, rfl⟩ | ⟨c, -, rfl⟩ | ⟨u, hu, rfl⟩ | ⟨-, rfl⟩ | ⟨-, rfl⟩ := exec_case he
  · exact (h.writeWork hgrid).respond hw _
  · exact h.respond hw b
  · exact h.raiseFault hc c _
  · obtain ⟨hinv, hidle⟩ := h.pushedFrom hc hu
    exact (hinv.issueFrame hidle).resume
  · exact (h.issuePixel (by simp [hc]) (by simp [hc]) (cells_pos s.cfg)).resume
  · exact (h.issueFill hc).resume

/-! ## Every step keeps it -/

/-- Settles O42, one case of `StepCase` at a time: RESET establishes the invariant, and running a command, rejecting a frame
and taking an answer keep it by the lemmas above. -/
theorem everyStepKeepsTheStateSound : Obligations.EveryStepKeepsTheStateSound := by
  intro s t h hstep
  obtain ⟨rest, -, rfl⟩ | ⟨f, held, i, hc, -, -, he⟩ | ⟨f, held, r, hc, -, -, rfl⟩ | ⟨-, -, rfl⟩ |
    ⟨-, f, rest, -, rfl⟩ | ⟨-, rest, -, rfl⟩ | ⟨-, a, rest, -, ho, rfl⟩ := step_case hstep
  · exact State.assertReset_inv _
  · exact (h.ports held s.inputs).of_exec hc he
  · exact (h.ports held s.inputs).raiseFault hc _ _
  · exact h
  · exact h.ports _ rest
  · exact h.ports s.cmd rest
  · exact ((h.ports s.cmd rest).deliver ho a).resume

end Sys2Proof.Machine

/-! One step of the block (10_state.md R26, R29, R36, R43): what it keeps, when the FAULT level falls, and what it does with
held frames and late answers. Each claim is a case analysis over `StepCase`. -/

namespace Sys2Proof.Machine

variable {s t : State}

/-! ## Steps of one kind -/

theorem State.not_idle_of_awaiting (hw : s.awaiting = true) : s.ctl ≠ .idle := by
  intro hc
  simp [State.awaiting, hc] at hw

/-- READY is deasserted, or there is nothing to accept (R36). -/
theorem State.ready_false_or_no_frame (hn : s.ctl ≠ .idle ∨ s.cmd = []) : s.ready = false ∨ s.cmd = [] :=
  hn.imp_left fun hc => Bool.eq_false_iff.2 fun h => hc (s.ready_iff.1 h)

/-- Settles O7: the step of an IDLE block accepts the frame (`step_accept`), and accepting it runs what it decodes to. -/
theorem stepRunsTheDecodedCommand : Obligations.StepRunsTheDecodedCommand := by
  intro s f held i hc hf hr hd
  rw [step_accept (State.resetNext_false hr) hc hf]
  simp only [State.accept, hd]

/-- Settles O43: commands keep the configuration (`exec_keeps`), so do answers (`State.answered_frame`), and RESET reads it
from the state it ends. -/
theorem configurationIsConstant : Obligations.ConfigurationIsConstant := by
  intro s t hstep
  obtain ⟨rest, -, rfl⟩ | ⟨f, held, i, -, -, -, he⟩ | ⟨f, held, r, -, -, -, rfl⟩ | ⟨-, -, rfl⟩ |
    ⟨-, f, rest, -, rfl⟩ | ⟨-, rest, -, rfl⟩ | ⟨-, a, rest, -, -, rfl⟩ := step_case hstep
  · rfl
  · obtain ⟨hcfg, -⟩ := exec_keeps he
    exact hcfg
  · rfl
  · rfl
  · rfl
  · rfl
  · obtain ⟨hcfg, -⟩ := State.answered_frame s a rest
    exact hcfg

/-! ## The FAULT level -/

/-- A block that is not IDLE keeps FSR until RESET (R25). -/
theorem step_fsr_of_not_idle (hstep : step s = .next t) (hc : s.ctl ≠ .idle) :
    t.fsr = s.fsr ∨ ∃ rest, s.inputs = .reset :: rest := by
  obtain ⟨rest, hi, -⟩ | ⟨f, held, i, hidle, -, -, -⟩ | ⟨f, held, r, hidle, -, -, -⟩ | ⟨-, -, rfl⟩ |
    ⟨-, f, rest, -, rfl⟩ | ⟨-, rest, -, rfl⟩ | ⟨-, a, rest, -, -, rfl⟩ := step_case hstep
  · exact .inr ⟨rest, hi⟩
  · exact absurd hidle hc
  · exact absurd hidle hc
  · exact .inl rfl
  · exact .inl rfl
  · exact .inl rfl
  · obtain ⟨-, -, -, -, hfsr, -⟩ := State.answered_frame s a rest
    exact .inl hfsr

/-- Settles O50: by the invariant FAULT is asserted exactly in FAULTED, where no step but RESET changes FSR
(`step_fsr_of_not_idle`); and the state a step enters is sound (O42). -/
theorem faultLevelFallsOnlyByReset : Obligations.FaultLevelFallsOnlyByReset := by
  refine ⟨fun s => ?_, fun s t hinv hstep hl => ?_, fun s t hinv hstep _ ht => ?_⟩
  · simp [State.faultLevel, fsrCause]
  · have hc : s.ctl ≠ .idle := by simp [hinv.faulted_iff.2 hl]
    refine (step_fsr_of_not_idle hstep hc).imp_left fun hfsr => ?_
    simpa only [State.faultLevel, hfsr] using hl
  · exact (everyStepKeepsTheStateSound s t hinv hstep).faulted_iff.1 ht

/-! ## Waiting, holding frames, late answers -/

/-- Settles O51, by the move that comes next: none, a frame, or nothing happens. -/
theorem waitingBlockOnlyHoldsFrames : Obligations.WaitingBlockOnlyHoldsFrames := by
  intro s hw hr ha
  have hn : s.ctl ≠ .idle ∨ s.cmd = [] := .inl (State.not_idle_of_awaiting hw)
  match hi : s.inputs with
  | [] =>
    have hs : ({ s with inputs := [] } : State) = s := by rw [← hi]
    exact ⟨[], by simp [step_still hn hi, hs], .inl (by simp)⟩
  | .frame f :: rest => exact ⟨[f], step_input hn hi, .inr ⟨f, rest, rfl, rfl⟩⟩
  | .answer a :: rest => exact absurd hi (ha a rest)
  | .reset :: rest => exact absurd hi (hr rest)
  | .quiet :: rest => exact ⟨[], by simp [step_input hn hi, State.takeInput], .inl (by simp)⟩

/-- Settles O53: the abandoned request's answer takes the block to `State.release` (`State.deliver_abandoned`), which is `u`,
and the block runs on from there. -/
theorem lateAnswerIsDiscarded : Obligations.LateAnswerIsDiscarded := by
  intro s u a rest hab hi hn hu
  have hrelease : ({ s with inputs := rest } : State).release = u := hu.symm
  have huw : u.awaiting = s.awaiting := by rw [hu]; rfl
  have hui : u.inputs = rest := by rw [hu]
  have hstep : step s = .next u.resume := by
    rw [step_answer hn hi (.inr hab), State.deliver_abandoned (s := { s with inputs := rest }) a hab, hrelease]
  refine ⟨fun hrest => ?_, fun hw => ⟨?_, ?_⟩, fun a' rest' hw hrest => ?_⟩
  · rw [hstep, State.resume_of_not_answer (by rwa [hui])]
  · rw [hstep, State.resume_of_not_awaiting (huw.trans hw)]
  · simp [hu, State.currentRequest_of_not_awaiting hw]
  · have huw : u.awaiting = true := huw.trans hw
    have hui : u.inputs = .answer a' :: rest' := hui.trans hrest
    rw [hstep, State.resume_answer hui huw, step_answer (.inl (State.not_idle_of_awaiting huw)) hui (.inl huw)]

/-- Settles O54: a step that runs or rejects a command has taken the oldest frame; any other adds the frame offered, if
there is one. -/
theorem heldFramesAreNotLostOrReordered : Obligations.HeldFramesAreNotLostOrReordered := by
  intro s t hr hstep
  obtain ⟨rest, hi, -⟩ | ⟨f, held, i, hc, hf, -, he⟩ | ⟨f, held, r, hc, hf, -, rfl⟩ | ⟨hn, hi, rfl⟩ |
    ⟨hn, f, rest, hi, rfl⟩ | ⟨hn, rest, hi, rfl⟩ | ⟨hn, a, rest, hi, -, rfl⟩ := step_case hstep
  · exact absurd hi (hr rest)
  · obtain ⟨-, hcmd⟩ := exec_keeps he
    exact .inl ⟨s.ready_iff.2 hc, f, by rw [hf, hcmd]⟩
  · exact .inl ⟨s.ready_iff.2 hc, f, hf⟩
  · exact .inr ⟨State.ready_false_or_no_frame hn, .inl ⟨rfl, by simp [hi]⟩⟩
  · exact .inr ⟨State.ready_false_or_no_frame hn, .inr ⟨f, rest, hi, rfl⟩⟩
  · exact .inr ⟨State.ready_false_or_no_frame hn, .inl ⟨rfl, by simp [hi]⟩⟩
  · obtain ⟨-, -, -, -, -, hcmd⟩ := State.answered_frame s a rest
    exact .inr ⟨State.ready_false_or_no_frame hn, .inl ⟨hcmd, by simp [hi]⟩⟩

end Sys2Proof.Machine

/-! Responses, requests and answers over one step (10_state.md R37, R38, R42, R43; 20_memory.md R65): two balances that
every operation of the block keeps. -/

namespace Sys2Proof.Machine

variable {s t u : State} {i : Instr} {a : Answer}

/-! ## Responses -/

/-- Responses sent, and the one that the command in progress still owes (R38). -/
def State.answeredOrRunning (s : State) : Nat := (responsesOf s.events).length + if s.awaiting then 1 else 0

theorem State.answeredOrRunning_of_awaiting (hw : s.awaiting = true) :
    s.answeredOrRunning = (responsesOf s.events).length + 1 := by
  simp [State.answeredOrRunning, hw]

theorem State.answeredOrRunning_of_not_awaiting (hw : s.awaiting = false) :
    s.answeredOrRunning = (responsesOf s.events).length := by
  simp [State.answeredOrRunning, hw]

theorem State.responses_respond (b : Frame) :
    (responsesOf (s.respond b).events).length = (responsesOf s.events).length + 1 := by
  simp [responsesOf]

theorem State.answeredOrRunning_respond (hw : s.awaiting = false) (b : Frame) :
    (s.respond b).answeredOrRunning = s.answeredOrRunning + 1 := by
  rw [State.answeredOrRunning_of_not_awaiting hw, ← State.responses_respond b]
  exact State.answeredOrRunning_of_not_awaiting hw

/-- A command that starts to wait owes its response. -/
theorem State.answeredOrRunning_issue {c : Ctl} {r : Request} (hw : (s.issue c r).awaiting = true) :
    (s.issue c r).answeredOrRunning = (responsesOf s.events).length + 1 := by
  rw [State.answeredOrRunning_of_awaiting hw, State.issue_responses]

theorem State.answeredOrRunning_release : s.release.answeredOrRunning = s.answeredOrRunning := by
  rw [State.answeredOrRunning, State.release_responses, State.awaiting_release, State.answeredOrRunning]

/-- An answer ends the command with the response it owes, or leaves both as they are. -/
theorem State.answeredOrRunning_deliver (hw : s.awaiting = true) (a : Answer) :
    (s.deliver a).answeredOrRunning = s.answeredOrRunning := by
  obtain ⟨-, hd⟩ | ⟨-, hd, -⟩ | ⟨-, k, -, -, -, hd⟩ := State.deliver_cases a hw <;> rw [hd]
  · exact State.answeredOrRunning_release
  · rw [State.answeredOrRunning_of_awaiting hw, State.answeredOrRunning_of_not_awaiting (State.awaiting_finish s a)]
    exact State.responses_respond (answerResponse a)
  · rw [State.answeredOrRunning_of_awaiting hw]
    exact State.answeredOrRunning_issue rfl

theorem State.answeredOrRunning_resume : s.resume.answeredOrRunning = s.answeredOrRunning :=
  State.resume_induct (P := fun u => u.answeredOrRunning = s.answeredOrRunning)
    (fun u a rest _ hw hu => (State.answeredOrRunning_deliver (s := { u with inputs := rest }) hw a).trans hu) rfl

/-- A command that an IDLE block runs answers, is in progress, or has faulted (R37, 60_exceptions.md R222). -/
theorem exec_answeredOrRunning (hc : s.ctl = .idle) (he : exec i s = .next t) :
    t.answeredOrRunning + (if t.ctl = .faulted then 1 else 0) = s.answeredOrRunning + 1 := by
  have hw : s.awaiting = false := s.not_awaiting_iff.2 (.inl hc)
  rw [State.answeredOrRunning_of_not_awaiting hw]
  obtain ⟨w, -, rfl⟩ | ⟨b, -, rfl⟩ | ⟨c, -, rfl⟩ | ⟨u, hu, rfl⟩ | ⟨-, rfl⟩ | ⟨-, rfl⟩ := exec_case he
  · rw [if_neg (by simp [hc])]
    exact (State.answeredOrRunning_respond (s := s.writeWork w) hw _).trans
      (congrArg (· + 1) (State.answeredOrRunning_of_not_awaiting hw))
  · rw [if_neg (by simp [hc])]
    exact (State.answeredOrRunning_respond hw b).trans (congrArg (· + 1) (State.answeredOrRunning_of_not_awaiting hw))
  · rw [if_pos (by simp)]
    exact congrArg (· + 1) (State.answeredOrRunning_of_not_awaiting rfl)
  · rw [if_neg u.push_not_faulted]
    have hevents : u.events = s.events := by rw [hu.frame]
    rw [← hevents]
    exact State.answeredOrRunning_resume.trans (State.answeredOrRunning_issue rfl)
  · rw [if_neg (State.resume_not_faulted (by simp))]
    exact State.answeredOrRunning_resume.trans (State.answeredOrRunning_issue rfl)
  · rw [if_neg (State.resume_not_faulted (by simp))]
    exact State.answeredOrRunning_resume.trans (State.answeredOrRunning_issue rfl)

/-- An answer never takes the block to FAULTED (60_exceptions.md R228). -/
theorem State.deliver_not_faulted (hw : s.awaiting = true) (a : Answer) : (s.deliver a).ctl ≠ .faulted := by
  obtain ⟨-, hd⟩ | ⟨-, hd, -⟩ | ⟨-, k, -, -, -, hd⟩ := State.deliver_cases a hw <;> rw [hd]
  · exact State.not_faulted_of_awaiting hw
  · simp
  · simp

/-- An answer that is owed answers no frame beyond the one in progress, and enters no fault. -/
theorem State.answered_responses (hw : s.awaiting = true ∨ s.abandoned = true) (a : Answer) (rest : List Input) :
    (({ s with inputs := rest }).deliver a).resume.answeredOrRunning = s.answeredOrRunning ∧
    (s.ctl ≠ .faulted → (({ s with inputs := rest }).deliver a).resume.ctl ≠ .faulted) := by
  cases hw' : s.awaiting with
  | true =>
    exact ⟨State.answeredOrRunning_resume.trans (State.answeredOrRunning_deliver (s := { s with inputs := rest }) hw' a),
      fun _ => State.resume_not_faulted (State.deliver_not_faulted (s := { s with inputs := rest }) hw' a)⟩
  | false =>
    rw [State.answered_late (hw.resolve_left (by simp [hw'])) hw']
    exact ⟨rfl, id⟩

/-- The balance of a step that accepts no frame. -/
theorem answeredOrRunning_of_not_accepting (hn : s.ctl ≠ .idle ∨ s.cmd = [])
    (h : t.answeredOrRunning = s.answeredOrRunning) (hf : s.ctl ≠ .faulted → t.ctl ≠ .faulted) :
    t.answeredOrRunning + (if s.ctl ≠ .faulted ∧ t.ctl = .faulted then 1 else 0) =
      s.answeredOrRunning + (if s.ctl = .idle ∧ s.cmd ≠ [] then 1 else 0) := by
  rw [h, if_neg fun ⟨hs, ht⟩ => hf hs ht, if_neg (by tauto)]

/-- Settles O55, over `State.answeredOrRunning`: a step that accepts a frame adds one to it or faults
(`exec_answeredOrRunning`), and any other step keeps it. -/
theorem everyAcceptedFrameIsAnsweredOnce : Obligations.EveryAcceptedFrameIsAnsweredOnce := by
  intro s t hr hstep
  change t.answeredOrRunning + _ = s.answeredOrRunning + _
  obtain ⟨rest, hi, -⟩ | ⟨f, held, i, hc, hf, -, he⟩ | ⟨f, held, r, hc, hf, -, rfl⟩ | ⟨hn, -, rfl⟩ |
    ⟨hn, f, rest, -, rfl⟩ | ⟨hn, rest, -, rfl⟩ | ⟨hn, a, rest, -, hw, rfl⟩ := step_case hstep
  · exact absurd hi (hr rest)
  · have hrun : t.answeredOrRunning + (if t.ctl = .faulted then 1 else 0) = s.answeredOrRunning + 1 :=
      exec_answeredOrRunning (s := { s with cmd := held }) hc he
    simpa [hc, hf] using hrun
  · have hw : s.awaiting = false := s.not_awaiting_iff.2 (.inl hc)
    rw [State.answeredOrRunning_of_not_awaiting hw, if_pos ⟨by simp [hc], rfl⟩, if_pos ⟨hc, by simp [hf]⟩]
    exact congrArg (· + 1) (State.answeredOrRunning_of_not_awaiting rfl)
  · exact answeredOrRunning_of_not_accepting hn rfl id
  · exact answeredOrRunning_of_not_accepting hn rfl id
  · exact answeredOrRunning_of_not_accepting hn rfl id
  · obtain ⟨hbalance, hnf⟩ := State.answered_responses hw a rest
    exact answeredOrRunning_of_not_accepting hn hbalance hnf

/-! ## Requests and answers -/

/-- From `s` to `t`, the requests owed before and those issued are the answers taken and the requests owed after; what was
emitted is extended and what is to come is shortened (R42, R43). -/
def RequestsBalance (s t : State) : Prop :=
  ∃ new taken, t.events = s.events ++ new ∧ s.inputs = taken ++ t.inputs ∧
    s.owed + (requestsOf new).length = (answersOf taken).length + t.owed

theorem RequestsBalance.trans (h : RequestsBalance s t) (h' : RequestsBalance t u) : RequestsBalance s u := by
  obtain ⟨new, taken, hev, hin, hbal⟩ := h
  obtain ⟨new', taken', hev', hin', hbal'⟩ := h'
  refine ⟨new ++ new', taken ++ taken', by rw [hev', hev, List.append_assoc], by rw [hin, hin', List.append_assoc], ?_⟩
  simp only [requestsOf_append, answersOf_append, List.length_append]
  omega

/-- The block emits no request and takes no answer. -/
theorem RequestsBalance.of_no_traffic {new : List Event} {taken : List Input} (hev : t.events = s.events ++ new)
    (hin : s.inputs = taken ++ t.inputs) (hnew : requestsOf new = []) (htaken : answersOf taken = [])
    (ho : t.owed = s.owed) : RequestsBalance s t :=
  ⟨new, taken, hev, hin, by simp [hnew, htaken, ho]⟩

theorem RequestsBalance.refl (s : State) : RequestsBalance s s :=
  .of_no_traffic (new := []) (taken := []) (by simp) rfl rfl rfl rfl

theorem State.owed_of_awaiting (hw : s.awaiting = true) : s.owed = 1 := by simp [State.owed, hw]

theorem State.owed_of_abandoned (h : s.abandoned = true) : s.owed = 1 := by simp [State.owed, h]

theorem State.owed_eq_zero (hw : s.awaiting = false) (h : s.abandoned = false) : s.owed = 0 := by simp [State.owed, hw, h]

theorem State.owed_le_one (s : State) : s.owed ≤ 1 := by
  rw [State.owed]
  split <;> simp

/-- RESET leaves the request of the command it abandons owed (R40). -/
theorem State.owed_assertReset : s.assertReset.owed = s.owed := by
  simp [State.owed, State.awaiting, Bool.or_comm]

theorem State.owed_raiseFault (hc : s.ctl = .idle) (cause : Cause) (opcode : Byte) :
    (s.raiseFault cause opcode).owed = s.owed := by
  simp [State.owed, State.awaiting, hc]

/-- The request goes out, or it is held back while another is owed. -/
theorem State.issue_balance {c : Ctl} {r : Request} (hs : s.awaiting = false) (hw : (s.issue c r).awaiting = true) :
    RequestsBalance s (s.issue c r) := by
  cases hab : s.abandoned with
  | true => exact ⟨[], [], by simp [hab], rfl, by rw [State.owed_of_awaiting hw, State.owed_of_abandoned hab]; rfl⟩
  | false =>
    exact ⟨[.request r], [], by simp [hab], rfl, by rw [State.owed_of_awaiting hw, State.owed_eq_zero hs hab]; rfl⟩

/-- The request held back, if there is one, is owed in place of the abandoned one (20_memory.md R65). -/
theorem State.Inv.release_traffic (h : s.Inv) (hab : s.abandoned = true) :
    ∃ new, s.release.events = s.events ++ new ∧ s.owed + (requestsOf new).length = 1 + s.release.owed := by
  refine ⟨_, s.release_events, ?_⟩
  rw [State.owed_of_abandoned hab]
  cases hw : s.awaiting with
  | true =>
    obtain ⟨r, hr⟩ := Option.isSome_iff_exists.1 (h.currentRequest_isSome hw)
    rw [State.owed_of_awaiting (s := s.release) hw, hr]
    rfl
  | false =>
    rw [State.owed_eq_zero (s := s.release) hw rfl, State.currentRequest_of_not_awaiting hw]
    rfl

/-- The answer owed is taken; what the block issues next, if anything, is owed instead. -/
theorem State.Inv.deliver_traffic (h : s.Inv) (ho : s.awaiting = true ∨ s.abandoned = true) (a : Answer) :
    ∃ new, (s.deliver a).events = s.events ++ new ∧ s.owed + (requestsOf new).length = 1 + (s.deliver a).owed := by
  obtain hw | hab := ho
  · obtain ⟨hab, hd⟩ | ⟨hab, hd, -⟩ | ⟨hab, k, -, -, -, hd⟩ := State.deliver_cases a hw <;> rw [hd]
    · exact h.release_traffic hab
    · rw [State.owed_of_awaiting hw, State.owed_eq_zero (State.awaiting_finish s a) hab]
      exact ⟨_, s.finish_events a, rfl⟩
    · rw [State.owed_of_awaiting hw, State.owed_of_awaiting (s.awaiting_issuePixel (k + 1))]
      exact ⟨[.request (s.pixelRequest (k + 1))], by simp [hab], rfl⟩
  · rw [State.deliver_abandoned a hab]
    exact h.release_traffic hab

theorem State.Inv.deliver_balance {rest : List Input} (h : s.Inv) (ho : s.awaiting = true ∨ s.abandoned = true)
    (hi : s.inputs = .answer a :: rest) : RequestsBalance s (({ s with inputs := rest }).deliver a) := by
  obtain ⟨new, hev, hbal⟩ := (h.ports s.cmd rest).deliver_traffic ho a
  exact ⟨new, [.answer a], hev, by rw [State.deliver_inputs, hi]; rfl, hbal⟩

theorem State.Inv.resume_balance (h : s.Inv) : RequestsBalance s s.resume := by
  have hrun : s.resume.Inv ∧ RequestsBalance s s.resume :=
    State.resume_induct (P := fun u => u.Inv ∧ RequestsBalance s u)
      (fun u a rest hi hw ⟨hu, hb⟩ =>
        ⟨(hu.ports u.cmd rest).deliver (.inl hw) a, hb.trans (hu.deliver_balance (.inl hw) hi)⟩)
      ⟨h, .refl s⟩
  obtain ⟨-, hb⟩ := hrun
  exact hb

/-- A command issues its request, if it makes one, and then runs on through the answers that are there. -/
theorem State.Inv.exec_balance (h : s.Inv) (hc : s.ctl = .idle) (he : exec i s = .next t) : RequestsBalance s t := by
  have hw : s.awaiting = false := s.not_awaiting_iff.2 (.inl hc)
  obtain ⟨w, -, rfl⟩ | ⟨b, -, rfl⟩ | ⟨c, -, rfl⟩ | ⟨u, hu, rfl⟩ | ⟨-, rfl⟩ | ⟨-, rfl⟩ := exec_case he
  · exact .of_no_traffic (taken := []) rfl rfl rfl rfl rfl
  · exact .of_no_traffic (taken := []) rfl rfl rfl rfl rfl
  · exact .of_no_traffic (new := []) (taken := []) (by simp) rfl rfl rfl (State.owed_raiseFault hc c _)
  · obtain ⟨hinv, hidle⟩ := h.pushedFrom hc hu
    have hsu : RequestsBalance s u := by cases hu <;> exact .refl s
    refine (hsu.trans ?_).trans (hinv.issueFrame hidle).resume_balance
    exact State.issue_balance (s := { u with fb := some (composeFrame u.cfg.toParams u.commit u.bright) })
      (u.not_awaiting_iff.2 (.inl hidle)) rfl
  · exact (State.issue_balance hw rfl).trans
      (h.issuePixel (by simp [hc]) (by simp [hc]) (cells_pos s.cfg)).resume_balance
  · exact (State.issue_balance hw rfl).trans (h.issueFill hc).resume_balance

theorem State.Inv.step_balance (h : s.Inv) (hstep : step s = .next t) : RequestsBalance s t := by
  obtain ⟨rest, hi, rfl⟩ | ⟨f, held, i, hc, -, -, he⟩ | ⟨f, held, r, hc, -, -, rfl⟩ | ⟨-, -, rfl⟩ |
    ⟨-, f, rest, hi, rfl⟩ | ⟨-, rest, hi, rfl⟩ | ⟨-, a, rest, hi, ho, rfl⟩ := step_case hstep
  · exact .of_no_traffic (new := []) (taken := [.reset]) (by simp) hi rfl rfl State.owed_assertReset
  · exact (h.ports held s.inputs).exec_balance hc he
  · exact .of_no_traffic (new := []) (taken := []) (by simp) rfl rfl rfl
      (State.owed_raiseFault (s := { s with cmd := held }) hc r.cause r.opcode)
  · exact .refl _
  · exact .of_no_traffic (new := []) (taken := [.frame f]) (by simp) hi rfl rfl rfl
  · exact .of_no_traffic (new := []) (taken := [.quiet]) (by simp) hi rfl rfl rfl
  · exact (h.deliver_balance ho hi).trans ((h.ports s.cmd rest).deliver ho a).resume_balance

/-- Settles O56: the balance of `State.Inv.step_balance`, where at most one request is owed (`State.owed_le_one`). -/
theorem requestsAndAnswersBalance : Obligations.RequestsAndAnswersBalance := by
  intro s t h hstep
  obtain ⟨new, taken, hev, hin, hbal⟩ := h.step_balance hstep
  exact ⟨new, taken, hev, hin, hbal, t.owed_le_one⟩

end Sys2Proof.Machine

/-! Who writes which state element (10_state.md R20, R22, R25, R27, R28; 42_compositor.md R183): what each command writes,
then what a step that runs no command writes. -/

namespace Sys2Proof.Machine

variable {s t u : State} {i : Instr} {a : Answer}

/-! ## FB goes only with an answer -/

/-- From `s` to `t` the block took an answer. -/
def TookAnswer (s t : State) : Prop := ∃ taken, s.inputs = taken ++ t.inputs ∧ answersOf taken ≠ []

/-- From `s` to `t` FB was kept, or it went with an answer (log 14). -/
def FbKeptOrEnded (s t : State) : Prop := t.fb = s.fb ∨ (t.fb = none ∧ TookAnswer s t)

/-- Running on changes nothing, or takes an answer. -/
theorem State.resume_took (s : State) : s.resume = s ∨ TookAnswer s s.resume := by
  have hrun : ∃ taken, s.inputs = taken ++ s.resume.inputs ∧ (s.resume = s ∨ answersOf taken ≠ []) := by
    refine State.resume_induct (P := fun u => ∃ taken, s.inputs = taken ++ u.inputs ∧ (u = s ∨ answersOf taken ≠ [])) ?_
      ⟨[], rfl, .inl rfl⟩
    rintro u a rest hi - ⟨taken, hin, -⟩
    exact ⟨taken ++ [.answer a], by simp [State.deliver_inputs, hin, hi], .inr (by simp [answersOf])⟩
  obtain ⟨taken, hin, htook⟩ := hrun
  exact htook.imp_right fun hne => ⟨taken, hin, hne⟩

theorem State.deliver_fb (hw : s.awaiting = true) (a : Answer) : (s.deliver a).fb = s.fb ∨ (s.deliver a).fb = none := by
  obtain ⟨-, hd⟩ | ⟨-, hd, -⟩ | ⟨-, k, -, -, -, hd⟩ := State.deliver_cases a hw <;> rw [hd]
  · exact .inl rfl
  · exact .inr rfl
  · exact .inl rfl

theorem State.resume_fb (s : State) : s.resume.fb = s.fb ∨ s.resume.fb = none := by
  refine State.resume_induct (P := fun u => u.fb = s.fb ∨ u.fb = none) ?_ (.inl rfl)
  intro u a rest _ hw hu
  obtain hd | hd := State.deliver_fb (s := { u with inputs := rest }) hw a
  · rw [hd]
    exact hu
  · exact .inr hd

theorem State.resume_fbKeptOrEnded (s : State) : FbKeptOrEnded s s.resume := by
  obtain hr | htook := s.resume_took
  · rw [hr]
    exact .inl rfl
  · exact s.resume_fb.imp_right fun hnone => ⟨hnone, htook⟩

/-- An answer that comes next is taken. -/
theorem State.answered_took {rest : List Input} (hi : s.inputs = .answer a :: rest) :
    TookAnswer s (({ s with inputs := rest }).deliver a).resume := by
  have hin : (({ s with inputs := rest }).deliver a).inputs = rest := State.deliver_inputs a
  obtain hr | ⟨taken, htaken, -⟩ := (({ s with inputs := rest }).deliver a).resume_took
  · exact ⟨[.answer a], by rw [hr, hin, hi]; rfl, by simp [answersOf]⟩
  · exact ⟨.answer a :: taken, by rw [List.cons_append, ← htaken, hin, hi], by simp [answersOf]⟩

theorem State.answered_fbKeptOrEnded {rest : List Input} (hi : s.inputs = .answer a :: rest)
    (ho : s.awaiting = true ∨ s.abandoned = true) :
    FbKeptOrEnded s (({ s with inputs := rest }).deliver a).resume := by
  cases hw : s.awaiting with
  | false =>
    rw [State.answered_late (ho.resolve_left (by simp [hw])) hw]
    exact .inl rfl
  | true =>
    have hfb : (({ s with inputs := rest }).deliver a).resume.fb = s.fb ∨
        (({ s with inputs := rest }).deliver a).resume.fb = none := by
      obtain hr | hr := (({ s with inputs := rest }).deliver a).resume_fb
      · rw [hr]
        exact State.deliver_fb (s := { s with inputs := rest }) hw a
      · exact .inr hr
    exact hfb.imp_right fun hnone => ⟨hnone, State.answered_took hi⟩

/-! ## What each command writes -/

theorem PushedFrom.instr_eq (hu : PushedFrom s i u) : i = .push ∨ i = .setgrid ∨ ∃ b, i = .setbrt b := by
  cases hu with
  | push => exact .inl rfl
  | setgrid => exact .inr (.inl rfl)
  | setbrt b => exact .inr (.inr ⟨b, rfl⟩)

/-- The commands that write WORK (R183). -/
theorem exec_work (he : exec i s = .next t) : t.work = s.work ∨
    (i = .clear ∨ (∃ x y v, i = .wrcell x y v) ∨ (∃ c, i = .loadgrid c) ∨ (∃ pk, i = .loadpk pk) ∨
      (∃ off g, i = .glyph off g)) := by
  cases i with
  | clear => exact .inr (.inl rfl)
  | wrcell x y v => exact .inr (.inr (.inl ⟨x, y, v, rfl⟩))
  | loadgrid c => exact .inr (.inr (.inr (.inl ⟨c, rfl⟩)))
  | loadpk pk => exact .inr (.inr (.inr (.inr (.inl ⟨pk, rfl⟩))))
  | glyph off g => exact .inr (.inr (.inr (.inr (.inr ⟨off, g, rfl⟩))))
  | rdcell x y =>
    simp only [exec, execRdcell] at he
    split at he <;> cases he <;> exact .inl rfl
  | rdbrt => cases he; exact .inl rfl
  | setgrid =>
    cases he
    obtain ⟨-, hwork, -⟩ := (s.writeCommit (setgridWrites s.cfg.toParams s.work)).push_frame
    exact .inl hwork
  | setbrt b =>
    cases he
    obtain ⟨-, hwork, -⟩ := ({ s with bright := b } : State).push_frame
    exact .inl hwork
  | push =>
    cases he
    obtain ⟨-, hwork, -⟩ := s.push_frame
    exact .inl hwork
  | pushslow =>
    cases he
    obtain ⟨-, hwork, -⟩ := (s.issuePixel 0).resume_frame
    exact .inl hwork
  | fullon =>
    cases he
    obtain ⟨-, hwork, -⟩ := (s.issue .waitFill (.fillAll s.cfg.fullOnValue)).resume_frame
    exact .inl hwork

/-- COMMIT is SETGRID's, BRIGHT is SETBRT's, and FSR is written at fault entry (R183, 60_exceptions.md R222). -/
theorem exec_display (he : exec i s = .next t) :
    (t.commit = s.commit ∨ i = .setgrid) ∧ (t.bright = s.bright ∨ i = .setbrt t.bright) ∧
    (t.fsr = s.fsr ∨ t.ctl = .faulted) := by
  obtain ⟨w, -, rfl⟩ | ⟨b, -, rfl⟩ | ⟨c, -, rfl⟩ | ⟨u, hu, rfl⟩ | ⟨-, rfl⟩ | ⟨-, rfl⟩ := exec_case he
  · exact ⟨.inl rfl, .inl rfl, .inl rfl⟩
  · exact ⟨.inl rfl, .inl rfl, .inl rfl⟩
  · exact ⟨.inl rfl, .inl rfl, .inr rfl⟩
  · obtain ⟨-, -, hcommit, hbright, hfsr, -⟩ := u.push_frame
    rw [hcommit, hbright, hfsr]
    cases hu with
    | push => exact ⟨.inl rfl, .inl rfl, .inl rfl⟩
    | setgrid => exact ⟨.inr rfl, .inl rfl, .inl rfl⟩
    | setbrt b => exact ⟨.inl rfl, .inr rfl, .inl rfl⟩
  · obtain ⟨-, -, hcommit, hbright, hfsr, -⟩ := (s.issuePixel 0).resume_frame
    exact ⟨.inl hcommit, .inl hbright, .inl hfsr⟩
  · obtain ⟨-, -, hcommit, hbright, hfsr, -⟩ := (s.issue .waitFill (.fillAll s.cfg.fullOnValue)).resume_frame
    exact ⟨.inl hcommit, .inl hbright, .inl hfsr⟩

/-- push() composes FB, which goes with the answer (R166). -/
theorem State.push_took (h : s.push.fb = none) : TookAnswer s s.push := by
  rw [State.push_eq] at h ⊢
  obtain hfb | ⟨-, htook⟩ := State.resume_fbKeptOrEnded _
  · rw [hfb] at h
    cases h
  · exact htook

/-- FB is composed by the pushing commands; any other keeps it, or ends with an answer. -/
theorem exec_fb (he : exec i s = .next t) : FbKeptOrEnded s t ∨
    ((i = .push ∨ i = .setgrid ∨ ∃ b, i = .setbrt b) ∧ (t.fb = none → TookAnswer s t)) := by
  obtain ⟨w, -, rfl⟩ | ⟨b, -, rfl⟩ | ⟨c, -, rfl⟩ | ⟨u, hu, rfl⟩ | ⟨-, rfl⟩ | ⟨-, rfl⟩ := exec_case he
  · exact .inl (.inl rfl)
  · exact .inl (.inl rfl)
  · exact .inl (.inl rfl)
  · have hinputs : u.inputs = s.inputs := by rw [hu.frame]
    refine .inr ⟨hu.instr_eq, fun hnone => ?_⟩
    simpa only [TookAnswer, hinputs] using State.push_took hnone
  · exact .inl (s.issuePixel 0).resume_fbKeptOrEnded
  · exact .inl (s.issue .waitFill (.fillAll s.cfg.fullOnValue)).resume_fbKeptOrEnded

/-! ## What a step writes -/

/-- But for RESET, a step runs a command or keeps WORK, COMMIT, BRIGHT and, unless an answer ends the command, FB; it then
writes FSR only by rejecting a frame. -/
theorem step_ran_or_kept (hr : ∀ rest, s.inputs ≠ .reset :: rest) (hstep : step s = .next t) :
    (∃ f held i, s.ctl = .idle ∧ s.cmd = f :: held ∧ decode s.cfg.toParams f = .ok i ∧
      exec i { s with cmd := held } = .next t) ∨
    (t.work = s.work ∧ t.commit = s.commit ∧ t.bright = s.bright ∧ FbKeptOrEnded s t ∧
      (t.fsr = s.fsr ∨ (s.ctl = .idle ∧ t.ctl = .faulted))) := by
  obtain ⟨rest, hi, -⟩ | ⟨f, held, i, hc, hf, hd, he⟩ | ⟨f, held, r, hc, -, -, rfl⟩ | ⟨-, -, rfl⟩ |
    ⟨-, f, rest, -, rfl⟩ | ⟨-, rest, -, rfl⟩ | ⟨-, a, rest, hi, ho, rfl⟩ := step_case hstep
  · exact absurd hi (hr rest)
  · exact .inl ⟨f, held, i, hc, hf, hd, he⟩
  · exact .inr ⟨rfl, rfl, rfl, .inl rfl, .inr ⟨hc, rfl⟩⟩
  · exact .inr ⟨rfl, rfl, rfl, .inl rfl, .inl rfl⟩
  · exact .inr ⟨rfl, rfl, rfl, .inl rfl, .inl rfl⟩
  · exact .inr ⟨rfl, rfl, rfl, .inl rfl, .inl rfl⟩
  · obtain ⟨-, hwork, hcommit, hbright, hfsr, -⟩ := State.answered_frame s a rest
    exact .inr ⟨hwork, hcommit, hbright, State.answered_fbKeptOrEnded hi ho, .inl hfsr⟩

/-- But for RESET, CTL changes only by an accepted frame or by an answer that a waiting block takes (R27). -/
theorem step_ctl (hr : ∀ rest, s.inputs ≠ .reset :: rest) (hstep : step s = .next t) : t.ctl = s.ctl ∨
    (s.ctl = .idle ∧ s.cmd ≠ []) ∨ (s.awaiting = true ∧ ∃ a rest, s.inputs = .answer a :: rest) := by
  obtain ⟨rest, hi, -⟩ | ⟨f, held, i, hc, hf, -, -⟩ | ⟨f, held, r, hc, hf, -, -⟩ | ⟨-, -, rfl⟩ |
    ⟨-, f, rest, -, rfl⟩ | ⟨-, rest, -, rfl⟩ | ⟨-, a, rest, hi, ho, rfl⟩ := step_case hstep
  · exact absurd hi (hr rest)
  · exact .inr (.inl ⟨hc, by simp [hf]⟩)
  · exact .inr (.inl ⟨hc, by simp [hf]⟩)
  · exact .inl rfl
  · exact .inl rfl
  · exact .inl rfl
  · cases hw : s.awaiting with
    | true => exact .inr (.inr ⟨rfl, a, rest, hi⟩)
    | false =>
      rw [State.answered_late (ho.resolve_left (by simp [hw])) hw]
      exact .inl rfl

/-- Settles O46: a step runs a command, and then `exec_work`, `exec_display` and `exec_fb` say what that one writes, or it
keeps the elements (`step_ran_or_kept`). -/
theorem eachElementHasItsOwnWriters : Obligations.EachElementHasItsOwnWriters := by
  intro s t hr hstep
  have hctl : t.ctl ≠ s.ctl → _ := (step_ctl hr hstep).resolve_left
  obtain ⟨f, held, i, hc, hf, hd, he⟩ | ⟨hwork, hcommit, hbright, hfb, hfsr⟩ := step_ran_or_kept hr hstep
  · obtain ⟨hcommit, hbright, hfsr⟩ := exec_display he
    refine ⟨fun hne => ⟨f, held, i, hc, hf, hd, (exec_work he).resolve_left hne⟩,
      fun hne => ⟨f, held, hc, hf, hcommit.resolve_left hne ▸ hd⟩,
      fun hne => ⟨f, held, hc, hf, hbright.resolve_left hne ▸ hd⟩,
      fun hne => ⟨hc, hfsr.resolve_left hne⟩, fun hsome hne => ?_, fun hnone hsome => ?_, hctl⟩
    · obtain (hkept | ⟨hnone, -⟩) | ⟨hi, -⟩ := exec_fb he
      · exact absurd hkept hne
      · exact absurd hnone hsome
      · exact ⟨f, held, i, hc, hf, hd, hi⟩
    · obtain (hkept | ⟨-, htook⟩) | ⟨-, htook⟩ := exec_fb he
      · exact absurd (hkept.symm.trans hnone) hsome
      · exact htook
      · exact htook hnone
  · refine ⟨fun hne => absurd hwork hne, fun hne => absurd hcommit hne, fun hne => absurd hbright hne,
      fun hne => hfsr.resolve_left hne, fun hsome hne => ?_, fun hnone hsome => ?_, hctl⟩
    · obtain hkept | ⟨hnone, -⟩ := hfb
      · exact absurd hkept hne
      · exact absurd hnone hsome
    · obtain hkept | ⟨-, htook⟩ := hfb
      · exact absurd (hkept.symm.trans hnone) hsome
      · exact htook

end Sys2Proof.Machine

/-! A transport command whose answer does not come (10_state.md R27, R28, R43; 20_memory.md R65; 42_compositor.md R166):
it has done its own write and waits, its request issued, or held back behind an abandoned one (log 4). -/

namespace Sys2Proof.Machine

variable {s : State} {blocked : Bool} {late : List Answer} {rest : List Input}

/-- The payload of a push is what 42_compositor.md R162 to R164 say of it. -/
theorem framePayload_isFrameOf (cfg : Config) (commit : Memory) (bright : Byte) :
    IsFrameOf cfg.toParams commit bright (framePayload cfg.toParams (composeFrame cfg.toParams commit bright)) := by
  refine ⟨framePayload_length _ _, fun x y hx hy => ?_, fun k hk hunmapped => ?_⟩
  · rw [framePayload_getElem? _ _ (flat_lt cfg hx hy), read_composeFrame cfg commit bright hx hy]
    rfl
  · rw [framePayload_getElem? _ _ hk, read_composeFrame_unmapped _ _ _ hunmapped]

/-- A command that issues its request, when the abandoned request's answer comes or not (`blocked`) and then none, waits. -/
theorem State.issue_waits {c : Ctl} {r : Request} (hw : (s.issue c r).awaiting = true)
    (hr : (s.issue c r).currentRequest = some r) (hlate : late.length + blocked.toNat = s.abandoned.toNat)
    (hi : s.inputs = late.map .answer ++ rest) (hrest : ∀ a rest', rest ≠ .answer a :: rest') :
    (s.issue c r).resume = { s with
      ctl := c, abandoned := blocked, inputs := rest, events := s.events ++ if blocked then [] else [.request r] } := by
  cases blocked with
  | false =>
    rw [State.resume_issue hw hr hlate hi, State.resume_of_not_answer hrest]
    rfl
  | true =>
    have hab : s.abandoned = true := by
      cases hab : s.abandoned with
      | true => rfl
      | false => simp [hab] at hlate
    obtain rfl : late = [] := List.length_eq_zero_iff.1 (by simpa [hab] using hlate)
    obtain rfl : s.inputs = rest := hi
    rw [State.resume_of_not_answer (s := s.issue c r) hrest]
    simp [State.issue, hab]

/-- push() waits with the frame it composed. -/
theorem State.push_waits (hlate : late.length + blocked.toNat = s.abandoned.toNat)
    (hi : s.inputs = late.map .answer ++ rest) (hrest : ∀ a rest', rest ≠ .answer a :: rest') :
    ∃ fb buf, buf = (List.range s.cfg.bufLen).map fb.read ∧ IsFrameOf s.cfg.toParams s.commit s.bright buf ∧
      s.push = { s with
        ctl := .waitFrame, fb := some fb, abandoned := blocked, inputs := rest,
        events := s.events ++ if blocked then [] else [.request (.writeFullFrame buf)] } :=
  ⟨composeFrame s.cfg.toParams s.commit s.bright, _, rfl, framePayload_isFrameOf s.cfg s.commit s.bright,
    State.issue_waits (s := { s with fb := some (composeFrame s.cfg.toParams s.commit s.bright) }) rfl rfl hlate hi hrest⟩

/-- Settles O37: FULLON waits by `State.issue_waits`, and PUSH, SETBRT and SETGRID by `State.push_waits`, from the state
their own write gives. -/
theorem transportCommandsWaitForTheirAnswer : Obligations.TransportCommandsWaitForTheirAnswer := by
  intro s blocked late rest hwf hlate hi hrest
  refine ⟨?_, ?_, fun b => ?_, ?_⟩
  · exact congrArg Host.Outcome.next (State.issue_waits rfl rfl hlate hi hrest)
  · obtain ⟨fb, buf, hbuf, hframe, hpush⟩ := State.push_waits hlate hi hrest
    exact ⟨fb, buf, hbuf, hframe, congrArg Host.Outcome.next hpush⟩
  · obtain ⟨fb, buf, hbuf, hframe, hpush⟩ := State.push_waits (s := { s with bright := b }) hlate hi hrest
    exact ⟨fb, buf, hbuf, hframe, congrArg Host.Outcome.next hpush⟩
  · obtain ⟨fb, buf, hbuf, hframe, hpush⟩ :=
      State.push_waits (s := s.writeCommit (setgridWrites s.cfg.toParams s.work)) hlate hi hrest
    exact ⟨_, fb, buf, fun x y hx hy => read_setgridWrites s.cfg.toParams s.commit s.work hwf hx hy, hbuf, hframe,
      congrArg Host.Outcome.next hpush⟩

end Sys2Proof.Machine

/-! WORK is ordinary memory (20_memory.md R61, R64): a cell keeps what was last written to it, and a framebuffer command
repeated writes what is already there. -/

namespace Sys2Proof.Machine

variable {s : State} {i : Instr}

/-! ## Reading back one cell -/

@[simp] theorem State.readWork_respond (b : Frame) (x y : Nat) : (s.respond b).readWork x y = s.readWork x y := rfl

/-- A cell of WORK after one cell was written. -/
theorem State.readWork_writeWork_cell {x y x' y' : Nat} (v : Byte) (hm : s.work.wf) (hx : x < s.cfg.width)
    (hx' : x' < s.cfg.width) :
    (s.writeWork [(cellIndex s.cfg.toParams x y, v)]).readWork x' y' =
      if x' = x ∧ y' = y then v else s.readWork x' y' := by
  split
  · next h =>
    obtain ⟨rfl, rfl⟩ := h
    exact Memory.read_write_same hm
  · next h => exact Memory.read_write_other fun hindex => h (cellIndex_inj hx' hx hindex)

/-- Settles O13: RDCELL answers what `State.readWork_writeWork_cell` says of its cell. -/
theorem rdcellAfterWrcell : Obligations.RdcellAfterWrcell := by
  intro s t x y v x' y' hm hx hy hx' hy' he
  rw [exec_wrcell_in v hx hy] at he
  cases he
  refine Eq.trans (exec_rdcell_in hx' hy') ?_
  rw [State.readWork_respond, State.readWork_writeWork_cell v hm hx hx']
  simp only [BitVec.toNat_inj]
  rfl

/-! ## Repeating a framebuffer command -/

/-- Writes to one address carry one value. -/
def WritesAgree (w : List (Nat × Byte)) : Prop := ∀ c ∈ w, ∀ d ∈ w, c.1 = d.1 → c.2 = d.2

theorem clearWrites_agree (p : Params) : WritesAgree (clearWrites p) := by
  intro c hc d hd _
  obtain ⟨_, -, rfl⟩ := List.mem_map.1 hc
  obtain ⟨_, -, rfl⟩ := List.mem_map.1 hd
  rfl

theorem loadgridWrites_agree (p : Params) (bytes : List Byte) : WritesAgree (loadgridWrites p bytes) := by
  intro c hc d hd he
  obtain ⟨l, -, rfl⟩ := List.mem_map.1 hc
  obtain ⟨l', -, rfl⟩ := List.mem_map.1 hd
  simp only [cellIndex_mod_div] at he
  rw [he]

theorem writesAgree_singleton (c : Nat × Byte) : WritesAgree [c] := by
  intro d hd e he _
  rw [List.mem_singleton.1 hd, List.mem_singleton.1 he]

/-- WRCELL off the grid (40_framebuffer.md R112). -/
theorem exec_wrcell_out {x y : Byte} (v : Byte) (h : ¬ inGrid s.cfg.toParams x y = true) :
    exec (.wrcell x y v) s = .next (s.raiseFault .cellRange Opcode.wrcell.byte) := by
  simp only [exec, execWrcell, if_neg h]

/-- GLYPH on an offset that does not fit (41_glyph.md R140). -/
theorem exec_glyph_out {off : Byte} (g : List Byte) (h : ¬ glyphFits s.cfg.toParams off = true) :
    exec (.glyph off g) s = .next (s.raiseFault .glyphRange Opcode.glyph.byte) := by
  simp only [exec, execGlyph, if_neg h]

/-- Under one configuration a framebuffer command that writes always makes the same writes, or always raises the same
fault: neither depends on the rest of the state (40_framebuffer.md R110 to R118, 41_glyph.md R140). -/
theorem exec_writes_or_faults (cfg : Config)
    (hi : i = .clear ∨ (∃ x y v, i = .wrcell x y v) ∨ (∃ c, i = .loadgrid c) ∨ (∃ pk, i = .loadpk pk) ∨
      (∃ off g, i = .glyph off g)) :
    (∃ w, WritesAgree w ∧ ∀ s : State, s.cfg = cfg → exec i s = .next ((s.writeWork w).respond (okResponse []))) ∨
    (∃ cause opcode, ∀ s : State, s.cfg = cfg → exec i s = .next (s.raiseFault cause opcode)) := by
  obtain rfl | ⟨x, y, v, rfl⟩ | ⟨c, rfl⟩ | ⟨pk, rfl⟩ | ⟨off, g, rfl⟩ := hi
  · exact .inl ⟨_, clearWrites_agree cfg.toParams, by rintro s rfl; rfl⟩
  · by_cases h : inGrid cfg.toParams x y = true
    · obtain ⟨hx, hy⟩ := inGrid_iff.1 h
      exact .inl ⟨_, writesAgree_singleton (cellIndex cfg.toParams x.toNat y.toNat, v), by
        rintro s rfl
        exact exec_wrcell_in v hx hy⟩
    · exact .inr ⟨_, _, by rintro s rfl; exact exec_wrcell_out v h⟩
  · exact .inl ⟨_, loadgridWrites_agree cfg.toParams c, by rintro s rfl; rfl⟩
  · exact .inl ⟨_, loadpkWrites_agree cfg.toParams pk, by rintro s rfl; rfl⟩
  · by_cases h : glyphFits cfg.toParams off = true
    · exact .inl ⟨_, glyphWrites_agree cfg off g, by rintro s rfl; exact exec_glyph_fits g (glyphFits_iff.1 h)⟩
    · exact .inr ⟨_, _, by rintro s rfl; exact exec_glyph_out g h⟩

/-- Settles O20: the second run makes the first one's writes (`Memory.writeAll_idem`) or raises its fault again. -/
theorem framebufferWritesAreIdempotent : Obligations.FramebufferWritesAreIdempotent := by
  intro i s t u hm hi hst htu
  obtain ⟨w, hagree, hexec⟩ | ⟨cause, opcode, hexec⟩ := exec_writes_or_faults s.cfg hi
  · rw [hexec s rfl] at hst
    cases hst
    rw [hexec ((s.writeWork w).respond (okResponse [])) rfl] at htu
    cases htu
    have hwork : (s.work.writeAll w).writeAll w = s.work.writeAll w := Memory.writeAll_idem hm hagree
    simp [State.writeWork, State.respond, hwork]
  · rw [hexec s rfl] at hst
    cases hst
    rw [hexec (s.raiseFault cause opcode) rfl] at htu
    cases htu
    rfl

end Sys2Proof.Machine

/-! Decoder and encoder (30_encoding.md R80 to R86): one answer of `decode` for each kind of frame (empty, reserved opcode,
defined opcode), from which the round trips and the rejections follow. -/

namespace Sys2Proof

variable {p : Params} {i : Instr}

/-! ## The frames there are -/

/-- A frame is empty, begins with a reserved opcode or begins with a defined one: the first two checks of R85. -/
theorem frame_cases (f : Frame) : f = [] ∨ (∃ b l, f = b :: l ∧ Opcode.ofByte b = none) ∨
    ∃ (o : Opcode) (l : List Byte), f = o.byte :: l := by
  cases f with
  | nil => exact .inl rfl
  | cons b l =>
    cases hb : Opcode.ofByte b with
    | none => exact .inr (.inl ⟨b, l, rfl, hb⟩)
    | some o => exact .inr (.inr ⟨o, l, by rw [Opcode.byte_of_ofByte hb]⟩)

theorem decode_nil : decode p [] = .error ⟨.length, 0x00⟩ := rfl

/-- Well-formedness is the length rule of R81, as the decoder checks it. -/
theorem Instr.wf_iff_operands_length : i.wf p = true ↔ i.operands.length + 1 = i.opcode.length p := by
  refine ⟨Instr.operands_length, fun h => ?_⟩
  cases i with
  | loadgrid | loadpk | glyph =>
    simp only [Instr.operands, Instr.opcode, Opcode.length, Opcode.format, Format.length, List.length_cons] at h
    simp only [Instr.wf, glyphN, beq_iff_eq]
    omega
  | clear | wrcell | rdcell | setgrid | setbrt | push | pushslow | fullon | rdbrt => rfl

/-- No operand bit is reserved (R84): a frame with a defined opcode and its length is a well-formed command's. -/
theorem exists_encode_of_length {o : Opcode} {l : List Byte} (hl : l.length + 1 = o.length p) :
    ∃ i : Instr, i.wf p = true ∧ encode i = o.byte :: l := by
  obtain ⟨i, hi⟩ := Option.isSome_iff_exists.1 (readOperands_isSome hl)
  obtain ⟨rfl, rfl⟩ := operands_of_readOperands hi
  exact ⟨i, Instr.wf_iff_operands_length.2 hl, rfl⟩

/-! ## The round trips -/

/-- Settles O1: the opcode byte names its opcode, the operands of a well-formed command have its length
(`Instr.operands_length`), and reading them gives the command back (`readOperands_operands`). -/
theorem decodeReadsBackEveryEncodedCommand : Obligations.DecodeReadsBackEveryEncodedCommand := by
  intro p i hwf
  exact decode_of_operands (Instr.operands_length hwf) (readOperands_operands i)

/-- A frame with a defined opcode and its length decodes. -/
theorem exists_decode_of_length {o : Opcode} {l : List Byte} (hl : l.length + 1 = o.length p) :
    ∃ i, decode p (o.byte :: l) = .ok i := by
  obtain ⟨i, hwf, hi⟩ := exists_encode_of_length hl
  exact ⟨i, hi ▸ decodeReadsBackEveryEncodedCommand p i hwf⟩

/-- Settles O2: of the kinds of frame only one with a defined opcode and its length decodes; it is a well-formed
command's encoding (`exists_encode_of_length`), and by O1 that command is the one it decodes to. -/
theorem decodedFrameIsTheOneEncoding : Obligations.DecodedFrameIsTheOneEncoding := by
  intro p f i h
  obtain rfl | ⟨b, l, rfl, hb⟩ | ⟨o, l, rfl⟩ := frame_cases f
  · cases h
  · simp [decode_of_reserved l hb] at h
  · by_cases hl : l.length + 1 = o.length p
    · obtain ⟨j, hwf, hj⟩ := exists_encode_of_length hl
      rw [← hj, decodeReadsBackEveryEncodedCommand p j hwf] at h
      cases h
      exact ⟨hj, hwf⟩
    · simp [decode_of_length hl] at h

/-! ## Rejected frames -/

/-- Settles O3: each kind of frame has one answer of the decoder, and the three clauses name the three kinds. -/
theorem decodeRejectsByTheFirstFailingCheck : Obligations.DecodeRejectsByTheFirstFailingCheck := by
  intro p f r
  constructor
  · intro h
    obtain rfl | ⟨b, l, rfl, hb⟩ | ⟨o, l, rfl⟩ := frame_cases f
    · cases h
      exact .inl ⟨rfl, rfl⟩
    · rw [decode_of_reserved l hb] at h
      cases h
      exact .inr (.inl ⟨b, l, rfl, Opcode.ofByte_eq_none.1 hb, rfl⟩)
    · have hl : l.length + 1 ≠ o.length p := fun hl => by
        obtain ⟨i, hi⟩ := exists_decode_of_length hl
        simp [hi] at h
      rw [decode_of_length hl] at h
      cases h
      exact .inr (.inr ⟨o, l, rfl, hl, rfl⟩)
  · rintro (⟨rfl, rfl⟩ | ⟨op, l, rfl, hop, rfl⟩ | ⟨o, l, rfl, hl, rfl⟩)
    · exact decode_nil
    · exact decode_of_reserved l (Opcode.ofByte_eq_none.2 hop)
    · exact decode_of_length hl

/-- The holes of the opcode map, as R84 lists them. -/
theorem Opcode.ofByte_eq_none_iff_reserved (b : Byte) : Opcode.ofByte b = none ↔
    b.toNat = 0x00 ∨ b.toNat = 0x06 ∨ b.toNat = 0x07 ∨ (0x09 ≤ b.toNat ∧ b.toNat ≤ 0x0F) ∨ 0x16 ≤ b.toNat := by
  have hbytes : Opcode.ofByte b = none ↔ ∀ o ∈ Opcode.all, o.byte.toNat ≠ b.toNat := by
    simp [Opcode.ofByte, BitVec.toNat_inj]
  rw [hbytes]
  simp only [Opcode.all, List.mem_cons, List.not_mem_nil, or_false, Opcode.byte, BitVec.ofNat_eq_ofNat, ne_eq,
    forall_eq_or_imp, BitVec.toNat_ofNat, Nat.reducePow, Nat.one_mod, Nat.reduceMod, forall_eq]
  omega

/-- Settles O5: each word is `encode` of its command, which O1 reads back. -/
theorem sampleFramesDecode : Obligations.SampleFramesDecode :=
  have readBack := decodeReadsBackEveryEncodedCommand Params.testcfg
  ⟨readBack .clear rfl, readBack (.wrcell 8 33 128) rfl, readBack (.glyph 26 [255, 0, 0, 0, 0, 0, 0, 128]) rfl,
    readBack (.setbrt 51) rfl, readBack .pushslow rfl⟩

end Sys2Proof

/-! What the decoder's answers mean for the two that use frames: the block that accepts one (30_encoding.md R84, R85;
60_exceptions.md R222) and the assembler that emits one (30_encoding.md R100 to R102). -/

namespace Sys2Proof.Machine

/-- Settles O8: the step of an IDLE block accepts the frame (`step_accept`), and accepting a rejected one is fault entry. -/
theorem stepFaultsOnARejectedFrame : Obligations.StepFaultsOnARejectedFrame := by
  intro s f held r hc hf hr hd
  rw [step_accept (State.resetNext_false hr) hc hf]
  simp only [State.accept, hd]
  rfl

/-- Settles O4: the holes of the map are R84's list, a frame that begins with one is rejected with ILLEGAL_OPCODE, so O8
gives its step, and a frame of a defined opcode needs its length only (`exists_decode_of_length`). -/
theorem reservedOpcodesFaultAndNothingElseIsReserved : Obligations.ReservedOpcodesFaultAndNothingElseIsReserved := by
  refine ⟨Opcode.ofByte_eq_none_iff_reserved, fun s b l held hb hc hf hr => ?_,
    fun p o l hl => exists_decode_of_length hl⟩
  exact stepFaultsOnARejectedFrame s (b :: l) held ⟨.illegalOpcode, b⟩ hc hf hr (decode_of_reserved l hb)

/-- A line that emits a frame is a `.frame` line, or the frame is a well-formed command's (R100 to R102). -/
theorem assembleLine_eq_frame {p : Params} {line : List Char} {f : Frame} (h : assembleLine p line = .ok (some f)) :
    (∃ tokens, tokensFrom [] line = .word frameDirective :: tokens) ∨ ∃ i : Instr, i.wf p = true ∧ f = encode i := by
  simp only [assembleLine] at h
  split at h
  · cases h
  · next w tokens htokens =>
    split at h
    · next hw => exact .inl ⟨tokens, hw ▸ htokens⟩
    · split at h
      · cases h
      · split at h
        · next i _ =>
          split at h
          · next hwf =>
            cases h
            exact .inr ⟨i, hwf, rfl⟩
          · cases h
        · cases h
  · cases h

/-- Settles O6: a line without `.frame` emits the encoding of a well-formed command (`assembleLine_eq_frame`), which O1
reads back. -/
theorem assembledCommandDecodes : Obligations.AssembledCommandDecodes := by
  intro p line f h
  refine (assembleLine_eq_frame h).imp_right ?_
  rintro ⟨i, hwf, rfl⟩
  exact ⟨i, decodeReadsBackEveryEncodedCommand p i hwf, hwf⟩

end Sys2Proof.Machine

/-! The framebuffer commands (40_framebuffer.md R110 to R122): what a cell of WORK reads after each command's writes, that
the cells written are the grid's, and what follows for the commands. -/

namespace Sys2Proof.Machine

variable {p : Params} {s t : State} {m : Memory} {writes : List (Nat × Byte)} {x y a : Nat}

/-! ## Write lists -/

/-- An address reads the value that writes which agree give it. -/
theorem WritesAgree.read_writeAll {c : Nat × Byte} (h : WritesAgree writes) (hm : m.wf) (hc : c ∈ writes) :
    (m.writeAll writes).read c.1 = c.2 :=
  Memory.read_writeAll_agree hm hc fun d hd he => h d hd c hc he

/-- Writes to cells leave the addresses beyond the grid alone. -/
theorem GridWrites.read_writeAll_beyond (h : GridWrites p writes) (ha : p.cells ≤ a) :
    (m.writeAll writes).read a = m.read a :=
  Memory.read_writeAll_other fun c hc => ((h c hc).trans_le ha).ne

/-- After writes of 0 and 255 alone an address reads 0, 255 or what it read before. -/
theorem Memory.read_writeAll_mono (hm : m.wf) (h : ∀ c ∈ writes, c.2 = 0 ∨ c.2 = 255) (a : Nat) :
    (m.writeAll writes).read a = 0 ∨ (m.writeAll writes).read a = 255 ∨ (m.writeAll writes).read a = m.read a := by
  obtain ⟨c, hc, -, hread⟩ | hread := Memory.read_writeAll_cases (writes := writes) hm a
  · rw [hread]
    exact (h c hc).imp_right .inl
  · exact .inr (.inr hread)

/-! ## CLEAR -/

theorem read_clearWrites (hm : m.wf) (hx : x < p.width) (hy : y < p.height) :
    (m.writeAll (clearWrites p)).read (cellIndex p x y) = 0 :=
  (clearWrites_agree p).read_writeAll hm (List.mem_map.2 ⟨(x, y), mem_gridByColumns.2 ⟨hx, hy⟩, rfl⟩)

/-- Settles O9: every cell is among the cells CLEAR writes (`read_clearWrites`), and only cells are (`gridWrites_clear`). -/
theorem clearZeroesEveryCell : Obligations.ClearZeroesEveryCell := by
  intro s hm
  exact ⟨decodeReadsBackEveryEncodedCommand _ .clear rfl, _, rfl, fun x y hx hy => read_clearWrites hm hx hy,
    fun a ha => (gridWrites_clear _).read_writeAll_beyond ha⟩

/-- Settles O10: WORK reads 0 in every cell by `read_clearWrites` and beyond the grid because nothing is listed there; the
canonical memory that reads 0 everywhere is the empty one. -/
theorem clearGivesTheResetGrid : Obligations.ClearGivesTheResetGrid := by
  intro s t hm hin he
  cases he
  have hread : ∀ a, (s.work.writeAll (clearWrites s.cfg.toParams)).read a = 0 := fun a => by
    obtain ha | ha := lt_or_ge a s.cfg.cells
    · rw [← cellIndex_mod_div (p := s.cfg.toParams) a]
      exact read_clearWrites hm (mod_lt_width ha) (div_lt_height ha)
    · rw [(gridWrites_clear _).read_writeAll_beyond ha]
      exact Memory.read_of_within hin ha
  exact ⟨Memory.ext_read (Memory.wf_writeAll hm) Memory.wf_nil hread, hread⟩

/-! ## WRCELL and RDCELL -/

theorem not_inGrid_iff {x y : Byte} : ¬ inGrid p x y = true ↔ p.width ≤ x.toNat ∨ p.height ≤ y.toNat := by
  rw [inGrid_iff]
  omega

/-- RDCELL off the grid (40_framebuffer.md R114). -/
theorem exec_rdcell_out {x y : Byte} (h : ¬ inGrid s.cfg.toParams x y = true) :
    exec (.rdcell x y) s = .next (s.raiseFault .cellRange Opcode.rdcell.byte) := by
  simp only [exec, execRdcell, if_neg h]

/-- Settles O11: in range one write (`exec_wrcell_in`), out of range the fault (`exec_wrcell_out`). -/
theorem wrcellWritesOneCellOrFaults : Obligations.WrcellWritesOneCellOrFaults := by
  intro s x y v hm
  refine ⟨decodeReadsBackEveryEncodedCommand _ (.wrcell x y v) rfl, fun hx hy => ?_, fun hout => ?_⟩
  · exact ⟨_, exec_wrcell_in v hx hy, Memory.read_write_same hm, fun a ha => Memory.read_write_other ha⟩
  · exact exec_wrcell_out v (not_inGrid_iff.2 hout)

/-- Settles O12: in range the response (`exec_rdcell_in`), out of range the fault (`exec_rdcell_out`). -/
theorem rdcellAnswersTheCellOrFaults : Obligations.RdcellAnswersTheCellOrFaults := by
  intro s x y
  exact ⟨decodeReadsBackEveryEncodedCommand _ (.rdcell x y) rfl, exec_rdcell_in,
    fun hout => exec_rdcell_out (not_inGrid_iff.2 hout)⟩

/-! ## LOADGRID -/

theorem read_loadgridWrites {l : Nat} (bytes : List Byte) (hm : m.wf) (hl : l < p.cells) :
    (m.writeAll (loadgridWrites p bytes)).read (cellIndex p (l % p.width) (l / p.width)) = bytes.getD l 0 :=
  (loadgridWrites_agree p bytes).read_writeAll hm (List.mem_map.2 ⟨l, List.mem_range.2 hl, rfl⟩)

/-- Settles O14: byte L is written to the cell of index L (`read_loadgridWrites`), and only cells are written
(`gridWrites_loadgrid`). -/
theorem loadgridPlacesByLinearIndex : Obligations.LoadgridPlacesByLinearIndex := by
  intro s bytes hm hlen
  refine ⟨decodeReadsBackEveryEncodedCommand _ (.loadgrid bytes) (beq_iff_eq.2 hlen), _, rfl, fun l hl => ?_,
    fun a ha => (gridWrites_loadgrid _ bytes).read_writeAll_beyond ha⟩
  have hl' : l < bytes.length := hlen ▸ hl
  refine Eq.trans ?_ (congrArg some (read_loadgridWrites bytes hm hl).symm)
  rw [List.getElem?_eq_getElem hl', List.getD_eq_getElem _ _ hl']

/-! ## LOADPK -/

/-- A cell's bit of a packed frame of the right length stands in one of its bytes (20_memory.md R52). -/
theorem packedBit_of_cell {pk : List Byte} (hlen : pk.length = p.pkLen) (hx : x < p.width) (hy : y < p.height) :
    ∃ byte, pk[(x + p.width * y) / 8]? = some byte ∧
      packedBit pk (x + p.width * y) = byte.getLsbD ((x + p.width * y) % 8) :=
  packedBit_eq (hlen ▸ packedByte_lt hx hy)

/-- Settles O15: `read_loadpkWrites` at the byte that holds the cell's bit (`packedBit_of_cell`). -/
theorem loadpkDecodesWithTheMirror : Obligations.LoadpkDecodesWithTheMirror := by
  intro s pk hm hlen
  refine ⟨decodeReadsBackEveryEncodedCommand _ (.loadpk pk) (beq_iff_eq.2 hlen), _, rfl, fun x y hx hy => ?_,
    fun a ha => (gridWrites_loadpk _ pk).read_writeAll_beyond ha⟩
  obtain ⟨byte, hbyte, hbit⟩ := packedBit_of_cell hlen hx hy
  exact ⟨byte, hbyte, (read_loadpkWrites pk hm hx hy).trans (congrArg level hbit)⟩

/-- A cell of WORK after LOADPK is the level of its mirrored column's bit (R120). -/
theorem readWork_of_exec_loadpk {pk : List Byte} (hm : s.work.wf) (he : exec (.loadpk pk) s = .next t)
    (hx : x < s.cfg.width) (hy : y < s.cfg.height) :
    t.readWork x y = level (packedBit pk (mirror s.cfg.width x + s.cfg.width * y)) := by
  cases he
  have hread := read_loadpkWrites pk hm (mirror_lt hx) hy
  rwa [show s.cfg.width - 1 - mirror s.cfg.width x = x from mirror_mirror hx] at hread

/-- Settles O16: the level of the mirrored column's bit (`readWork_of_exec_loadpk`) is 255 exactly when that bit is set. -/
theorem loadpkLightsTheMirroredBit : Obligations.LoadpkLightsTheMirroredBit := by
  intro s t pk hm hlen he x y hx hy
  obtain ⟨byte, hbyte, hbit⟩ := packedBit_of_cell hlen (mirror_lt hx) hy
  rw [readWork_of_exec_loadpk hm he hx hy, hbit, show (255 : Byte) = level true from rfl, level_inj]
  exact ⟨fun hset => ⟨byte, hbyte, hset⟩, fun ⟨byte', hbyte', hset⟩ => by
    cases hbyte.symm.trans hbyte'
    exact hset⟩

/-- LOADPK writes every cell: the mirror leaves out no column. -/
theorem cellIndex_mem_loadpkWrites (pk : List Byte) (hx : x < p.width) (hy : y < p.height) :
    cellIndex p x y ∈ (loadpkWrites p pk).map Prod.fst := by
  refine List.mem_map.2 ⟨_, List.mem_map.2 ⟨(mirror p.width x, y), mem_gridByRows.2 ⟨mirror_lt hx, hy⟩, rfl⟩, ?_⟩
  simp only [mirror_mirror hx]

/-- LOADPK's writes in any order, on any grid: the result is theirs alone (R119). -/
theorem writeAll_perm_loadpkWrites {m' : Memory} (pk : List Byte) (hm : m.wf) (hm' : m'.wf) (hin : m.within p.cells)
    (hin' : m'.within p.cells) (hperm : writes.Perm (loadpkWrites p pk)) :
    m.writeAll writes = m'.writeAll (loadpkWrites p pk) := by
  refine Memory.writeAll_perm hm hm' (loadpkWrites_agree p pk) hperm fun k hk => ?_
  have hbeyond : p.cells ≤ k := not_lt.1 fun hlt => by
    obtain ⟨c, hc, hck⟩ := List.mem_map.1 (cellIndex_mem_loadpkWrites pk (mod_lt_width hlt) (div_lt_height hlt))
    exact hk c hc (hck.trans (cellIndex_mod_div k))
  rw [Memory.read_of_within hin hbeyond, Memory.read_of_within hin' hbeyond]

/-- Settles O17: the writes name every cell (`cellIndex_mem_loadpkWrites`) and none twice (`loadpkWrites_nodup`), so neither
the old WORK nor their order shows (`writeAll_perm_loadpkWrites`). -/
theorem loadpkReplacesTheWholeGrid : Obligations.LoadpkReplacesTheWholeGrid := by
  intro s w pk t t' hm hin hw hwin ht ht'
  cases ht
  cases ht'
  exact ⟨writeAll_perm_loadpkWrites pk hw hm hwin hin (.refl _),
    fun x hx => ⟨mirror_lt hx, mirror_mirror hx⟩,
    fun x y hx hy => List.count_eq_one_of_mem (loadpkWrites_nodup _ pk) (cellIndex_mem_loadpkWrites pk hx hy),
    fun writes hperm => writeAll_perm_loadpkWrites pk hm hm hin hin hperm⟩

/-- LOADPK's writes read the bits below CELLS alone (R121). -/
theorem loadpkWrites_congr {pk pk' : List Byte} (h : ∀ l, l < p.cells → packedBit pk l = packedBit pk' l) :
    loadpkWrites p pk = loadpkWrites p pk' := by
  refine List.map_congr_left fun ⟨x, y⟩ hc => ?_
  obtain ⟨hx, hy⟩ := mem_gridByRows.1 hc
  have hbit : packedBit pk (x + p.width * y) = packedBit pk' (x + p.width * y) := h _ (cellIndex_lt hx hy)
  simp only [hbit]

/-- Settles O18: the two frames give the same writes (`loadpkWrites_congr`). -/
theorem loadpkIgnoresPadding : Obligations.LoadpkIgnoresPadding := by
  intro s pk pk' _ _ hbits
  have hwrites : loadpkWrites s.cfg.toParams pk = loadpkWrites s.cfg.toParams pk' := loadpkWrites_congr hbits
  simp only [exec, execLoadpk, hwrites]

/-! ## The levels that enter WORK -/

theorem clearWrites_level (p : Params) : ∀ c ∈ clearWrites p, c.2 = 0 ∨ c.2 = 255 := by
  intro c hc
  obtain ⟨_, -, rfl⟩ := List.mem_map.1 hc
  exact .inl rfl

theorem glyphWrites_level (p : Params) (off : Byte) (g : List Byte) :
    ∀ c ∈ glyphWrites p off g, c.2 = 0 ∨ c.2 = 255 := by
  intro c hc
  obtain ⟨gx, gy, -, -, rfl⟩ := mem_glyphWrites.1 hc
  exact level_eq_zero_or _

/-- Settles O19: of the commands that write WORK (`exec_work`) CLEAR, LOADPK and GLYPH write 0 and 255 alone. -/
theorem levelsEnterOnlyByWrcellOrLoadgrid : Obligations.LevelsEnterOnlyByWrcellOrLoadgrid := by
  refine ⟨fun s t pk hm he x y hx hy => ?_, fun i s t hm hwrcell hloadgrid he a => ?_⟩
  · rw [readWork_of_exec_loadpk hm he hx hy]
    exact level_eq_zero_or _
  · obtain hwork | rfl | ⟨x, y, v, hi⟩ | ⟨c, hi⟩ | ⟨pk, rfl⟩ | ⟨off, g, rfl⟩ := exec_work he
    · exact .inr (.inr (by rw [hwork]))
    · cases he
      exact Memory.read_writeAll_mono hm (clearWrites_level _) a
    · exact absurd hi (hwrcell x y v)
    · exact absurd hi (hloadgrid c)
    · cases he
      exact Memory.read_writeAll_mono hm (loadpkWrites_level _ pk) a
    · by_cases hfits : glyphFits s.cfg.toParams off = true
      · rw [exec_glyph_fits g (glyphFits_iff.1 hfits)] at he
        cases he
        exact Memory.read_writeAll_mono hm (glyphWrites_level _ off g) a
      · rw [exec_glyph_out g hfits] at he
        cases he
        exact .inr (.inr rfl)

end Sys2Proof.Machine

/-! The glyph rasterizer (41_glyph.md R140 to R147): which addresses GLYPH's writes name, what the cells of its box read
after them, and what follows for the command. -/

namespace Sys2Proof.Machine

variable {s t : State} {off : Byte} {g : List Byte} {x y gx gy : Nat}

/-! ## The box -/

/-- The box of a glyph at row offset `o`, cell by cell (41_glyph.md R141): each of its cells is one glyph pixel's. -/
theorem exists_glyphPixel_iff {o : Nat} :
    (∃ gx gy, gx < 8 ∧ gy < 8 ∧ x = 7 - gx ∧ y = gy + o) ↔ x < 8 ∧ o ≤ y ∧ y < o + 8 := by
  constructor
  · rintro ⟨gx, gy, hgx, hgy, rfl, rfl⟩
    omega
  · rintro ⟨hx, hlo, hhi⟩
    exact ⟨7 - x, y - o, by omega⟩

/-- GLYPH's 64 writes as one map over the glyph pixels. -/
theorem glyphWrites_eq_map (p : Params) (off : Byte) (g : List Byte) :
    glyphWrites p off g = (List.range 8 ×ˢ List.range 8).map fun c =>
      (cellIndex p (7 - c.1) (c.2 + off.toNat), level (glyphBit g c.1 c.2)) := by
  simp only [glyphWrites, SProd.sprod, List.product, List.map_flatMap, List.map_map]
  rfl

theorem glyphWrites_length (p : Params) (off : Byte) (g : List Byte) : (glyphWrites p off g).length = 64 := by
  rw [glyphWrites_eq_map, List.length_map, List.length_product, List.length_range]

/-- No two glyph pixels have one address: the box is at most WIDTH columns wide. -/
theorem glyphWrites_nodup (cfg : Config) (off : Byte) (g : List Byte) :
    ((glyphWrites cfg.toParams off g).map Prod.fst).Nodup := by
  rw [glyphWrites_eq_map, List.map_map]
  refine List.Nodup.map_on ?_ (List.nodup_range.product List.nodup_range)
  rintro ⟨gx, gy⟩ hc ⟨gx', gy'⟩ hc' he
  have hwidth : 8 ≤ cfg.width := cfg.ok.1.1
  simp only [List.mem_product, List.mem_range] at hc hc'
  obtain ⟨hcol, hrow⟩ := cellIndex_inj (by omega) (by omega) he
  obtain rfl : gx = gx' := by omega
  obtain rfl : gy = gy' := by omega
  rfl

/-- A cell of the grid is one GLYPH writes exactly when it lies in the box. -/
theorem cellIndex_mem_glyphWrites_iff (cfg : Config) (off : Byte) (g : List Byte) (hx : x < cfg.width) :
    cellIndex cfg.toParams x y ∈ (glyphWrites cfg.toParams off g).map Prod.fst ↔
      x < 8 ∧ off.toNat ≤ y ∧ y < off.toNat + 8 := by
  have hwidth : 8 ≤ cfg.width := cfg.ok.1.1
  rw [← exists_glyphPixel_iff]
  constructor
  · intro hmem
    obtain ⟨c, hc, hindex⟩ := List.mem_map.1 hmem
    obtain ⟨gx, gy, hgx, hgy, rfl⟩ := mem_glyphWrites.1 hc
    obtain ⟨hcol, hrow⟩ := cellIndex_inj (by omega) hx hindex
    exact ⟨gx, gy, hgx, hgy, hcol.symm, hrow.symm⟩
  · rintro ⟨gx, gy, hgx, hgy, rfl, rfl⟩
    exact List.mem_map.2 ⟨_, mem_glyphWrites.2 ⟨gx, gy, hgx, hgy, rfl⟩, rfl⟩

/-! ## The pixels -/

theorem glyphBit_of_getElem? {byte : Byte} (h : g[gx]? = some byte) : glyphBit g gx gy = byte.getLsbD gy := by
  rw [glyphBit, List.getD_eq_getElem?_getD, h, Option.getD_some]

/-- A pixel of a glyph of 8 bytes stands in one of them (20_memory.md R53). -/
theorem exists_glyphByte (hlen : g.length = 8) (hgx : gx < 8) :
    ∃ byte, g[gx]? = some byte ∧ ∀ gy, glyphBit g gx gy = byte.getLsbD gy :=
  have hbyte : g[gx]? = some g[gx] := List.getElem?_eq_getElem (hlen ▸ hgx)
  ⟨g[gx], hbyte, fun _ => glyphBit_of_getElem? hbyte⟩

/-! ## The command -/

/-- What GLYPH leaves on an offset that fits. -/
theorem eq_of_exec_glyph (hfits : off.toNat + 8 ≤ s.cfg.height) (he : exec (.glyph off g) s = .next t) :
    t = (s.writeWork (glyphWrites s.cfg.toParams off g)).respond (okResponse []) := by
  rw [exec_glyph_fits g hfits] at he
  cases he
  rfl

/-- The cell of glyph pixel (gx, gy) after GLYPH, whatever it held before (R142). -/
theorem readWork_of_exec_glyph (hm : s.work.wf) (hfits : off.toNat + 8 ≤ s.cfg.height)
    (he : exec (.glyph off g) s = .next t) (hgx : gx < 8) (hgy : gy < 8) :
    t.readWork (7 - gx) (gy + off.toNat) = level (glyphBit g gx gy) := by
  rw [eq_of_exec_glyph hfits he]
  exact read_glyphWrites s.cfg g hm hgx hgy

/-- Settles O21: on an offset that fits each pixel is written to its cell (`read_glyphWrites`) and nothing else is
(`mem_glyphWrites`); on another the fault (`exec_glyph_out`). -/
theorem glyphDrawsItsBoxOrFaults : Obligations.GlyphDrawsItsBoxOrFaults := by
  intro s off g hm hlen
  refine ⟨decodeReadsBackEveryEncodedCommand _ (.glyph off g) (beq_iff_eq.2 hlen), fun hfits => ?_, fun hout => ?_⟩
  · refine ⟨_, exec_glyph_fits g hfits, fun gx gy hgx hgy => ?_, fun a ha => Memory.read_writeAll_other fun c hc => ?_⟩
    · obtain ⟨byte, hbyte, hbit⟩ := exists_glyphByte hlen hgx
      exact ⟨byte, hbyte, (read_glyphWrites s.cfg g hm hgx hgy).trans (congrArg level (hbit gy))⟩
    · obtain ⟨gx, gy, hgx, hgy, rfl⟩ := mem_glyphWrites.1 hc
      exact (ha gx gy hgx hgy).symm
  · exact exec_glyph_out g fun hfits => absurd (glyphFits_iff.1 hfits) (not_le.2 hout)

/-- Settles O22: the 64 writes name 64 addresses (`glyphWrites_nodup`), those of the box
(`cellIndex_mem_glyphWrites_iff`), so a cell outside it is not written. -/
theorem glyphWritesExactlyItsBox : Obligations.GlyphWritesExactlyItsBox := by
  intro s t off g hfits he
  refine ⟨glyphWrites_length _ off g, glyphWrites_nodup s.cfg off g,
    fun x y hx _ => cellIndex_mem_glyphWrites_iff s.cfg off g hx, fun x y hx _ hout => ?_⟩
  rw [eq_of_exec_glyph hfits he]
  exact Memory.read_writeAll_other fun c hc hindex =>
    hout ((cellIndex_mem_glyphWrites_iff s.cfg off g hx).1 (List.mem_map.2 ⟨c, hc, hindex⟩))

/-- Settles O23: a cell of the box is the level of its pixel on either WORK (`readWork_of_exec_glyph`), and writes that
agree have one result in every order (`Memory.writeAll_perm`). -/
theorem glyphOverwritesItsBox : Obligations.GlyphOverwritesItsBox := by
  intro s w off g t t' hm hw hfits he he'
  refine ⟨fun x y hx hlo hhi => ?_, fun gx gy byte hgx hgy hbyte hclear => ?_, fun writes hperm => ?_⟩
  · obtain ⟨gx, gy, hgx, hgy, rfl, rfl⟩ := exists_glyphPixel_iff.2 ⟨hx, hlo, hhi⟩
    rw [readWork_of_exec_glyph hm hfits he hgx hgy]
    exact readWork_of_exec_glyph (s := { s with work := w }) hw hfits he' hgx hgy
  · rw [readWork_of_exec_glyph hm hfits he hgx hgy, glyphBit_of_getElem? hbyte, hclear]
    rfl
  · rw [eq_of_exec_glyph hfits he]
    exact Memory.writeAll_perm hm hm (glyphWrites_agree s.cfg off g) hperm fun _ _ => rfl

/-- Settles O24: the cell is in range, because no grid is smaller than 8 by 8, so RDCELL answers it (`exec_rdcell_in`), and
it holds its pixel's level (`readWork_of_exec_glyph`). -/
theorem glyphReadsBackMirrored : Obligations.GlyphReadsBackMirrored := by
  intro s t g gx gy hm _ hlen hgx hgy he
  obtain ⟨byte, hbyte, hbit⟩ := exists_glyphByte hlen hgx
  have hwidth : 8 ≤ t.cfg.width := t.cfg.ok.1.1
  have hfits : (0 : Byte).toNat + 8 ≤ s.cfg.height := s.cfg.ok.2.1.1
  have hheight : 8 ≤ t.cfg.height := t.cfg.ok.2.1.1
  have hx : (BitVec.ofNat 8 (7 - gx)).toNat = 7 - gx := Nat.mod_eq_of_lt (by omega)
  have hy : (BitVec.ofNat 8 gy).toNat = gy := Nat.mod_eq_of_lt (by omega)
  have hread : t.readWork (7 - gx) gy = level (byte.getLsbD gy) :=
    (readWork_of_exec_glyph hm hfits he hgx hgy).trans (congrArg level (hbit gy))
  refine ⟨byte, hbyte, (exec_rdcell_in (by omega) (by omega)).trans ?_⟩
  rw [hx, hy, hread]
  rfl

end Sys2Proof.Machine

/-! The brightness multiply (42_compositor.md R160, R165): its value as a natural number, from which its laws follow. -/

namespace Sys2Proof.Machine

variable {g g' b b' : Byte}

/-- The product of two bytes fits in 16 bits (R160). -/
theorem byte_mul_le (g b : Byte) : g.toNat * b.toNat ≤ 65025 :=
  Nat.mul_le_mul (Nat.le_of_lt_succ g.isLt) (Nat.le_of_lt_succ b.isLt)

/-- The quotient fits in a byte, so nothing is cut off. -/
theorem scale_toNat (g b : Byte) : (scale g b).toNat = g.toNat * b.toNat / 255 := by
  have hprod := byte_mul_le g b
  exact (BitVec.toNat_ofNat _ _).trans (Nat.mod_eq_of_lt (by omega))

/-- Settles O25: the quotient is `scale_toNat`, the bound `byte_mul_le`. -/
theorem scaleIsTheExactQuotient : Obligations.ScaleIsTheExactQuotient :=
  fun g b => ⟨scale_toNat g b, byte_mul_le g b⟩

theorem scale_comm (g b : Byte) : scale g b = scale b g :=
  congrArg (fun n => BitVec.ofNat 8 (n / 255)) (Nat.mul_comm g.toNat b.toNat)

theorem scale_full (g : Byte) : scale g 255 = g := by
  apply BitVec.eq_of_toNat_eq
  rw [scale_toNat]
  exact Nat.mul_div_cancel g.toNat (by decide)

theorem scale_zero (g : Byte) : scale g 0 = 0 := by
  apply BitVec.eq_of_toNat_eq
  rw [scale_toNat]
  simp

theorem scale_mono (hg : g.toNat ≤ g'.toNat) (hb : b.toNat ≤ b'.toNat) :
    (scale g b).toNat ≤ (scale g' b').toNat := by
  rw [scale_toNat, scale_toNat]
  exact Nat.div_le_div_right (Nat.mul_le_mul hg hb)

/-- Scaling never brightens: at full brightness a value is itself, and brightness only falls from there. -/
theorem scale_le_left (g b : Byte) : (scale g b).toNat ≤ g.toNat := by
  have hfull : (scale g b).toNat ≤ (scale g 255).toNat := scale_mono le_rfl (Nat.le_of_lt_succ b.isLt)
  rwa [scale_full] at hfull

theorem scale_eq_zero_iff : scale g b = 0 ↔ g.toNat * b.toNat < 255 := by
  rw [← BitVec.toNat_inj, scale_toNat]
  exact Nat.div_eq_zero_iff_lt (by decide)

/-- Settles O26. The laws at 255 and 0 are `scale_full` and `scale_zero`, and the other argument's laws follow by
`scale_comm`. -/
theorem scaleLaws : Obligations.ScaleLaws := by
  refine ⟨fun b => ?_, scale_zero, scale_full, scale_comm, fun g b => ?_, fun _ _ _ _ => scale_mono,
    fun _ _ => scale_eq_zero_iff⟩
  · rw [scale_comm]
    exact scale_full b
  · refine le_min (scale_le_left g b) ?_
    rw [scale_comm]
    exact scale_le_left b g

end Sys2Proof.Machine

/-! The mapper and composition (42_compositor.md R161 to R164, R171): each cell has its own byte of FB, so compose() has one
result whatever the visiting order; the composed frame depends on COMMIT's cells and BRIGHT alone, and every
WRITE_FULL_FRAME request carries a composed frame. -/

namespace Sys2Proof.Machine

variable {s t u : State} {i : Instr}

/-! ## The mapper -/

/-- Settles O27: the table entry is `mapCell_mem`'s, in the buffer by `flat_lt`, and no two cells share a byte by
`flat_inj`. -/
theorem mapperGivesEachCellItsOwnByte : Obligations.MapperGivesEachCellItsOwnByte := by
  intro cfg
  refine ⟨fun x y hx hy => ?_, fun x y x' y' hx hy hx' hy' => flat_inj cfg hx hy hx' hy'⟩
  obtain ⟨hlt, hentry⟩ := mapCell_mem cfg hx hy
  exact ⟨(mapCell cfg.toParams x y).1, (mapCell cfg.toParams x y).2,
    (List.getElem?_eq_getElem hlt).trans (congrArg some hentry.symm), rfl, flat_lt cfg hx hy⟩

/-! ## The visiting order -/

/-- The loop of compose() as a product of the two ranges. -/
theorem gridByColumns_eq_product (p : Params) : gridByColumns p = List.range p.width ×ˢ List.range p.height := rfl

/-- Each cell is written once, and its byte is no other cell's (`flat_inj`). -/
theorem composeWrites_nodup (cfg : Config) (commit : Memory) (bright : Byte) :
    ((composeWrites cfg.toParams commit bright).map Prod.fst).Nodup := by
  rw [composeWrites, gridByColumns_eq_product, List.map_map]
  refine List.Nodup.map_on ?_ (List.nodup_range.product List.nodup_range)
  rintro ⟨x, y⟩ hc ⟨x', y'⟩ hc' hflat
  obtain ⟨hx, hy⟩ := mem_gridByColumns.1 hc
  obtain ⟨hx', hy'⟩ := mem_gridByColumns.1 hc'
  exact Prod.ext_iff.2 (flat_inj cfg hx hy hx' hy' hflat)

/-- Settles O28: the writes agree where they meet (`composeWrites_agree`), so their order is unobservable
(`Memory.writeAll_perm`), and each byte is written once. -/
theorem composeOrderIsUnobservable : Obligations.ComposeOrderIsUnobservable := fun cfg commit bright =>
  ⟨fun _ hperm => Memory.writeAll_perm Memory.wf_nil Memory.wf_nil (composeWrites_agree cfg commit bright) hperm
      fun _ _ => rfl,
    composeWrites_nodup cfg commit bright, fun _ _ => read_composeFrame cfg commit bright⟩

/-! ## What a push sends depends on -/

/-- compose() reads COMMIT in the cells of the grid only (R162). -/
theorem composeFrame_congr {p : Params} {commit commit' : Memory} {bright : Byte}
    (h : ∀ x y, x < p.width → y < p.height →
      commit'.read (cellIndex p x y) = commit.read (cellIndex p x y)) :
    composeFrame p commit' bright = composeFrame p commit bright := by
  have hwrites : composeWrites p commit' bright = composeWrites p commit bright := by
    refine List.map_congr_left fun c hc => ?_
    obtain ⟨hx, hy⟩ := mem_gridByColumns.1 hc
    rw [h c.1 c.2 hx hy]
  rw [composeFrame, hwrites, composeFrame]

/-- Settles O39: each state sends the frame it composes (`State.push_sends`), and the two compose the same one
(`composeFrame_congr`). -/
theorem pushPayloadDependsOnDisplayStateAlone : Obligations.PushPayloadDependsOnDisplayStateAlone := by
  intro s s' hcfg hbright hcells
  have hframe : composeFrame s'.cfg.toParams s'.commit s'.bright = composeFrame s.cfg.toParams s.commit s.bright := by
    rw [hcfg, hbright]
    refine composeFrame_congr fun x y hx hy => ?_
    simpa only [State.readCommit, hcfg] using hcells x y hx hy
  have hsends := s'.push_sends
  rw [hframe, hcfg] at hsends
  exact ⟨_, s.push, s'.push, rfl, rfl, s.push_sends, hsends⟩

/-! ## Every frame sent is a composed one -/

/-- From `s` to `t` the block keeps its configuration and only adds to what it emitted, and every WRITE_FULL_FRAME request
it adds carries a composed frame. -/
def SendsComposedFrames (s t : State) : Prop :=
  t.cfg = s.cfg ∧ ∃ new, t.events = s.events ++ new ∧ ∀ buf, .request (.writeFullFrame buf) ∈ new →
    ∃ commit bright, IsFrameOf s.cfg.toParams commit bright buf

theorem SendsComposedFrames.trans (h : SendsComposedFrames s t) (h' : SendsComposedFrames t u) :
    SendsComposedFrames s u := by
  obtain ⟨hcfg, new, hev, hnew⟩ := h
  obtain ⟨hcfg', new', hev', hnew'⟩ := h'
  refine ⟨hcfg'.trans hcfg, new ++ new', by rw [hev', hev, List.append_assoc], fun buf hbuf => ?_⟩
  obtain hbuf | hbuf := List.mem_append.1 hbuf
  · exact hnew buf hbuf
  · exact hcfg ▸ hnew' buf hbuf

/-- Nothing that is emitted is a WRITE_FULL_FRAME request. -/
theorem SendsComposedFrames.of_no_frame {new : List Event} (hcfg : t.cfg = s.cfg) (hev : t.events = s.events ++ new)
    (hnew : ∀ buf, .request (.writeFullFrame buf) ∉ new) : SendsComposedFrames s t :=
  ⟨hcfg, new, hev, fun buf hbuf => absurd hbuf (hnew buf)⟩

theorem SendsComposedFrames.of_events_eq (hcfg : t.cfg = s.cfg) (hev : t.events = s.events) :
    SendsComposedFrames s t :=
  .of_no_frame (new := []) hcfg (by simp [hev]) (by simp)

/-- The frame a sound block waits with is composed: it is FB, which the invariant fixes (10_state.md R28). -/
theorem State.Inv.currentRequest_composed {buf : List Byte} (h : s.Inv)
    (hr : s.currentRequest = some (.writeFullFrame buf)) : IsFrameOf s.cfg.toParams s.commit s.bright buf := by
  cases hc : s.ctl with
  | waitFrame =>
    obtain ⟨fb, hfb, rfl⟩ : ∃ fb, s.fb = some fb ∧ framePayload s.cfg.toParams fb = buf := by
      simpa [State.currentRequest, hc] using hr
    rw [h.fb_composed fb hfb]
    exact framePayload_isFrameOf s.cfg s.commit s.bright
  | idle => simp [State.currentRequest, hc] at hr
  | waitFill => simp [State.currentRequest, hc] at hr
  | waitPixel k => simp [State.currentRequest, State.pixelRequest, hc] at hr
  | faulted => simp [State.currentRequest, hc] at hr

theorem State.Inv.release_sends (h : s.Inv) : SendsComposedFrames s s.release := by
  refine ⟨rfl, _, s.release_events, fun buf hbuf => ⟨s.commit, s.bright, h.currentRequest_composed ?_⟩⟩
  simpa using hbuf

/-- A request is issued or held back. -/
theorem State.issue_sendsComposed {c : Ctl} {r : Request}
    (hr : ∀ buf, r = .writeFullFrame buf → ∃ commit bright, IsFrameOf s.cfg.toParams commit bright buf) :
    SendsComposedFrames s (s.issue c r) := by
  cases hab : s.abandoned with
  | true => exact .of_events_eq rfl (by simp [hab])
  | false => exact ⟨rfl, [.request r], by simp [hab], fun buf hbuf => hr buf (by simpa [eq_comm] using hbuf)⟩

theorem State.issuePixel_sendsComposed (s : State) (k : Nat) : SendsComposedFrames s (s.issuePixel k) :=
  State.issue_sendsComposed fun buf hbuf => by simp [State.pixelRequest] at hbuf

/-- push() before its wait. -/
theorem State.issueFrame_sendsComposed (s : State) : SendsComposedFrames s
    (({ s with fb := some (composeFrame s.cfg.toParams s.commit s.bright) }).issue .waitFrame
      (.writeFullFrame (framePayload s.cfg.toParams (composeFrame s.cfg.toParams s.commit s.bright)))) := by
  refine State.issue_sendsComposed (s := { s with fb := _ }) fun buf hbuf => ⟨s.commit, s.bright, ?_⟩
  cases hbuf
  exact framePayload_isFrameOf s.cfg s.commit s.bright

/-- An answer that is owed. -/
theorem State.Inv.deliver_sends (h : s.Inv) (ho : s.awaiting = true ∨ s.abandoned = true) (a : Answer) :
    SendsComposedFrames s (s.deliver a) := by
  obtain hw | hab := ho
  · obtain ⟨-, hd⟩ | ⟨-, hd, -⟩ | ⟨-, k, -, -, -, hd⟩ := State.deliver_cases a hw <;> rw [hd]
    · exact h.release_sends
    · exact .of_no_frame rfl (s.finish_events a) (by simp)
    · exact s.issuePixel_sendsComposed (k + 1)
  · rw [State.deliver_abandoned a hab]
    exact h.release_sends

theorem State.Inv.resume_sends (h : s.Inv) : SendsComposedFrames s s.resume := by
  have hrun : s.resume.Inv ∧ SendsComposedFrames s s.resume :=
    State.resume_induct (P := fun u => u.Inv ∧ SendsComposedFrames s u)
      (fun u a rest _ hw ⟨hu, hsent⟩ =>
        have hports : ({ u with inputs := rest } : State).Inv := hu.ports u.cmd rest
        ⟨hports.deliver (.inl hw) a, hsent.trans (hports.deliver_sends (.inl hw) a)⟩)
      ⟨h, .of_events_eq rfl rfl⟩
  obtain ⟨-, hsent⟩ := hrun
  exact hsent

theorem State.Inv.exec_sends (h : s.Inv) (hc : s.ctl = .idle) (he : exec i s = .next t) :
    SendsComposedFrames s t := by
  obtain ⟨w, -, rfl⟩ | ⟨b, -, rfl⟩ | ⟨c, -, rfl⟩ | ⟨u, hu, rfl⟩ | ⟨-, rfl⟩ | ⟨-, rfl⟩ := exec_case he
  · exact .of_no_frame rfl rfl (by simp)
  · exact .of_no_frame rfl rfl (by simp)
  · exact .of_events_eq rfl rfl
  · obtain ⟨hinv, hidle⟩ := h.pushedFrom hc hu
    have hsu : SendsComposedFrames s u := by cases hu <;> exact .of_events_eq rfl rfl
    exact (hsu.trans u.issueFrame_sendsComposed).trans (hinv.issueFrame hidle).resume_sends
  · exact (s.issuePixel_sendsComposed 0).trans
      (h.issuePixel (by simp [hc]) (by simp [hc]) (cells_pos s.cfg)).resume_sends
  · exact (State.issue_sendsComposed (by simp)).trans (h.issueFill hc).resume_sends

theorem State.Inv.step_sends (h : s.Inv) (hstep : step s = .next t) : SendsComposedFrames s t := by
  obtain ⟨rest, -, rfl⟩ | ⟨f, held, i, hc, -, -, he⟩ | ⟨f, held, r, -, -, -, rfl⟩ | ⟨-, -, rfl⟩ |
    ⟨-, f, rest, -, rfl⟩ | ⟨-, rest, -, rfl⟩ | ⟨-, a, rest, -, ho, rfl⟩ := step_case hstep
  · exact .of_events_eq rfl rfl
  · exact (h.ports held s.inputs).exec_sends hc he
  · exact .of_events_eq rfl rfl
  · exact .of_events_eq rfl rfl
  · exact .of_events_eq rfl rfl
  · exact .of_events_eq rfl rfl
  · have hports : ({ s with inputs := rest } : State).Inv := h.ports s.cmd rest
    exact (hports.deliver_sends ho a).trans (hports.deliver ho a).resume_sends

/-- Settles O29: in the composed FB by `read_composeFrame_unmapped`; and every frame a step sends is a composed one
(`State.Inv.step_sends`). -/
theorem unmappedBytesAreZeroInEveryPush : Obligations.UnmappedBytesAreZeroInEveryPush := by
  refine ⟨fun p commit bright k hk => read_composeFrame_unmapped p commit bright hk, fun s t h hstep => ?_⟩
  obtain ⟨-, new, hev, hnew⟩ := h.step_sends hstep
  refine ⟨new, hev, fun buf hbuf k hk hunmapped => ?_⟩
  obtain ⟨commit, bright, -, -, hzero⟩ := hnew buf hbuf
  exact hzero k hk hunmapped

end Sys2Proof.Machine

/-! The compositor's commands when the TRANSPORT answers (42_compositor.md R166 to R182): a push or a fill ends with its one
answer, and PUSHSLOW goes from pixel to pixel. A request abandoned by RESET is answered first (log 4). -/

namespace Sys2Proof.Machine

variable {s t u : State} {i : Instr} {a : Answer} {late : List Answer} {rest : List Input} {n : Nat}

/-! ## A full frame or a fill -/

/-- A full frame or a fill whose answer comes: the request, then the response that carries the answer (R166, R174). -/
theorem State.issue_answered {c : Ctl} {r : Request} (hc : c = .waitFrame ∨ c = .waitFill)
    (hr : (s.issue c r).currentRequest = some r) (hlate : late.length = s.abandoned.toNat)
    (hi : s.inputs = late.map .answer ++ .answer a :: rest) :
    (s.issue c r).resume = { s with ctl := .idle, fb := none, abandoned := false, inputs := rest, events := s.events ++
      [.request r, .response (statusBytes a)] } := by
  have hw : (s.issue c r).awaiting = true := (State.awaiting_iff _).2 (hc.imp_right .inl)
  rw [State.resume_issue hw hr hlate hi, State.resume_finish (a := a) (rest := rest) hc rfl rfl]
  simp [State.finish, State.respond, answerResponse_eq]

/-- The payload of push(). -/
def State.pushPayload (s : State) : List Byte :=
  framePayload s.cfg.toParams (composeFrame s.cfg.toParams s.commit s.bright)

theorem State.pushPayload_isFrameOf (s : State) : IsFrameOf s.cfg.toParams s.commit s.bright s.pushPayload :=
  framePayload_isFrameOf s.cfg s.commit s.bright

/-- push() whose answer comes (R166). -/
theorem State.push_answered (hlate : late.length = s.abandoned.toNat)
    (hi : s.inputs = late.map .answer ++ .answer a :: rest) :
    s.push = { s with ctl := .idle, fb := none, abandoned := false, inputs := rest, events := s.events ++
      [.request (.writeFullFrame s.pushPayload), .response (statusBytes a)] } :=
  State.issue_answered (s := { s with fb := some (composeFrame s.cfg.toParams s.commit s.bright) }) (.inl rfl) rfl
    hlate hi

/-- push() with no request abandoned sends its frame at once. -/
theorem State.push_events (hab : s.abandoned = false) :
    ∃ tail, s.push.events = s.events ++ .request (.writeFullFrame s.pushPayload) :: tail := by
  rw [State.push_eq]
  obtain ⟨tail, htail⟩ := State.resume_events _
  exact ⟨tail, htail.trans (by simp [hab, State.pushPayload])⟩

/-- Settles O30, by `State.push_answered`. -/
theorem pushSendsOneComposedFrame : Obligations.PushSendsOneComposedFrame := by
  intro s late a rest hlate hi
  exact ⟨decodeReadsBackEveryEncodedCommand _ .push rfl, s.pushPayload, s.pushPayload_isFrameOf,
    congrArg Host.Outcome.next (State.push_answered hlate hi)⟩

/-- Settles O31: COMMIT after the copy reads as WORK in the grid (`read_setgridWrites`) and as before beyond it
(`gridWrites_setgrid`), and push() composes from it (`State.push_answered`). -/
theorem setgridCommitsThenPushes : Obligations.SetgridCommitsThenPushes := by
  intro s late a rest hwf hlate hi
  exact ⟨decodeReadsBackEveryEncodedCommand _ .setgrid rfl, _, _,
    fun x y hx hy => read_setgridWrites s.cfg.toParams s.commit s.work hwf hx hy,
    fun k hk => (gridWrites_setgrid _ s.work).read_writeAll_beyond hk,
    (s.writeCommit (setgridWrites s.cfg.toParams s.work)).pushPayload_isFrameOf,
    congrArg Host.Outcome.next (State.push_answered hlate hi)⟩

/-- Settles O32: push() composes at the new brightness (`State.push_answered`). -/
theorem setbrtSetsThenPushes : Obligations.SetbrtSetsThenPushes := by
  intro s b late a rest hlate hi
  exact ⟨decodeReadsBackEveryEncodedCommand _ (.setbrt b) rfl, _, ({ s with bright := b } : State).pushPayload_isFrameOf,
    congrArg Host.Outcome.next (State.push_answered hlate hi)⟩

/-- Settles O35, by `State.issue_answered`. -/
theorem fullonFillsAndKeepsNoMode : Obligations.FullonFillsAndKeepsNoMode := by
  intro s late a rest hlate hi
  exact ⟨decodeReadsBackEveryEncodedCommand _ .fullon rfl,
    congrArg Host.Outcome.next (State.issue_answered (.inr rfl) rfl hlate hi)⟩

/-- Settles O36: RDBRT responds and does nothing else. -/
theorem rdbrtAnswersBrightness : Obligations.RdbrtAnswersBrightness :=
  fun _ => ⟨decodeReadsBackEveryEncodedCommand _ .rdbrt rfl, rfl⟩

/-! ## The retry after a failed push -/

/-- A pushing command pushes from the state its own write gives. -/
theorem exec_of_pushedFrom (hu : PushedFrom s i u) : exec i s = .next u.push := by
  cases hu <;> rfl

/-- A pushing command that was answered, and the PUSH after it: COMMIT and BRIGHT are as they were, so the payload is the
same (R179). -/
theorem PushedFrom.answered_then_push (hu : PushedFrom s i u) (hlate : late.length = s.abandoned.toNat)
    (hi : s.inputs = late.map .answer ++ .answer a :: rest) :
    u.push.events = s.events ++ [.request (.writeFullFrame u.pushPayload), .response (statusBytes a)] ∧
    ∃ tail, u.push.push.events = u.push.events ++ .request (.writeFullFrame u.pushPayload) :: tail := by
  have hab : u.abandoned = s.abandoned := by rw [hu.frame]
  have hin : u.inputs = s.inputs := by rw [hu.frame]
  have hev : u.events = s.events := by rw [hu.frame]
  rw [State.push_answered (hab ▸ hlate) (hin.trans hi), ← hev]
  exact ⟨rfl, State.push_events rfl⟩

/-- Settles O33. The payload is repeated by `PushedFrom.answered_then_push`; COMMIT and BRIGHT stay as the command's own
write made them, because push() writes neither (`State.push_frame`). -/
theorem failedPushKeepsTheNewStateForRetry : Obligations.FailedPushKeepsTheNewStateForRetry := by
  intro i s late e rest hwf hcmd hlate hi
  obtain ⟨u, hu⟩ : ∃ u, PushedFrom s i u := by
    obtain rfl | ⟨b, rfl⟩ := hcmd
    · exact ⟨_, .setgrid⟩
    · exact ⟨_, .setbrt b⟩
  obtain ⟨hevents, tail, hretry⟩ := hu.answered_then_push hlate hi
  obtain ⟨hcfg, -, hcommit, hbright, -⟩ := u.push_frame
  refine ⟨u.push, u.pushPayload, exec_of_pushedFrom hu, hevents, fun hset x y hx hy => ?_, fun b hset => ?_,
    u.push.push, tail, rfl, hretry⟩
  · subst hset
    cases hu
    rw [State.readCommit, hcfg, hcommit]
    exact read_setgridWrites s.cfg.toParams s.commit s.work hwf hx hy
  · subst hset
    cases hu
    exact hbright

/-! ## The answer that ends a command -/

/-- The answer that ends a waiting command: any to a full frame or a fill, a failed pixel's, the last pixel's (R166, R172,
R174). -/
def State.EndsWith (s : State) (a : Answer) : Prop :=
  s.ctl = .waitFrame ∨ s.ctl = .waitFill ∨ (∃ k e, s.ctl = .waitPixel k ∧ a = .err e) ∨
    ∃ k, s.ctl = .waitPixel k ∧ s.cfg.cells ≤ k + 1

theorem State.EndsWith.awaiting (h : s.EndsWith a) : s.awaiting = true := by
  obtain hc | hc | ⟨k, e, hc, -⟩ | ⟨k, hc, -⟩ := h <;> simp [State.awaiting, hc]

theorem State.EndsWith.deliver (h : s.EndsWith a) (hab : s.abandoned = false) : s.deliver a = s.finish a := by
  obtain hc | hc | ⟨k, e, hc, rfl⟩ | ⟨k, hc, hk⟩ := h
  · exact State.deliver_finish a hab (.inl hc)
  · exact State.deliver_finish a hab (.inr hc)
  · exact State.deliver_pixel_err e hab hc
  · cases a with
    | err e => exact State.deliver_pixel_err e hab hc
    | ok => rw [State.deliver_pixel_ok hab hc, if_neg (by omega)]

/-- Running on after an answer that ends the command. -/
theorem State.EndsWith.resume (h : s.EndsWith a) (hab : s.abandoned = false) :
    (({ s with inputs := rest } : State).deliver a).resume = { s with
      ctl := .idle, fb := none, inputs := rest, events := s.events ++ [.response (statusBytes a)] } := by
  have hend : ({ s with inputs := rest } : State).EndsWith a := h
  rw [hend.deliver hab, State.resume_of_not_awaiting (State.awaiting_finish _ a)]
  simp [State.finish, State.respond, answerResponse_eq]

/-! ## PUSHSLOW -/

/-- PUSHSLOW of state `s` waiting at pixel `n` with the moves `inputs` to come: pixels 0..n have been requested. -/
def State.slowAt (s : State) (n : Nat) (inputs : List Input) : State :=
  { s with ctl := .waitPixel n, abandoned := false, inputs := inputs, events := s.events ++
    (List.range (n + 1)).map fun k => .request (s.pixelRequest k) }

/-- PUSHSLOW begins at pixel 0, once the answer owed to an abandoned request, if there is one, has come. -/
theorem exec_pushslow (hlate : late.length = s.abandoned.toNat) (hi : s.inputs = late.map .answer ++ rest) :
    exec .pushslow s = .next (s.slowAt 0 rest).resume :=
  congrArg Host.Outcome.next (State.resume_issue rfl rfl hlate hi)

/-- The request of a pixel goes out when none is abandoned. -/
theorem State.issuePixel_eq (hab : s.abandoned = false) (k : Nat) : s.issuePixel k =
    { s with ctl := .waitPixel k, events := s.events ++ [.request (s.pixelRequest k)] } := by
  simp [State.issuePixel, State.issue, hab]

/-- A pixel's request depends on COMMIT and BRIGHT alone, which PUSHSLOW keeps. -/
theorem State.slowAt_pixelRequest (inputs : List Input) (k : Nat) :
    (s.slowAt n inputs).pixelRequest k = s.pixelRequest k := rfl

theorem State.slowAt_issuePixel : (s.slowAt n rest).issuePixel (n + 1) = s.slowAt (n + 1) rest := by
  rw [State.issuePixel_eq rfl, State.slowAt_pixelRequest]
  simp [State.slowAt, List.range_succ]

/-- An Ok takes PUSHSLOW to its next pixel (R172). -/
theorem State.slowAt_ok (hn : n + 1 < s.cfg.cells) :
    (s.slowAt n (.answer .ok :: rest)).resume = (s.slowAt (n + 1) rest).resume := by
  have hnext : (s.slowAt n rest).deliver .ok = s.slowAt (n + 1) rest := by
    rw [State.deliver_pixel_ok (k := n) rfl rfl, State.slowAt_issuePixel]
    exact if_pos hn
  rw [State.resume_answer (a := .ok) (rest := rest) rfl rfl]
  exact congrArg State.resume hnext

/-- n Oks take PUSHSLOW from pixel 0 to pixel n. -/
theorem State.slowAt_oks (hn : n < s.cfg.cells) :
    (s.slowAt 0 (List.replicate n (.answer .ok) ++ rest)).resume = (s.slowAt n rest).resume := by
  induction n generalizing rest with
  | zero => rfl
  | succ n ih =>
    rw [List.replicate_succ', List.append_assoc, ih (Nat.lt_of_succ_lt hn)]
    exact State.slowAt_ok hn

/-- An Err, or the answer to the last pixel, ends PUSHSLOW (R172). -/
theorem State.slowAt_ends (h : (s.slowAt n (.answer a :: rest)).EndsWith a) :
    (s.slowAt n (.answer a :: rest)).resume = { s with
      ctl := .idle, fb := none, abandoned := false, inputs := rest, events := s.events ++
        ((List.range (n + 1)).map fun k => .request (s.pixelRequest k)) ++ [.response (statusBytes a)] } := by
  rw [State.resume_answer rfl h.awaiting, h.resume rfl]
  rfl

/-- Settles O34: PUSHSLOW runs to its last pixel or to the failed one (`State.slowAt_oks`), whose answer ends it
(`State.slowAt_ends`). -/
theorem pushslowSendsPixelsInOrderUntilAFailure : Obligations.PushslowSendsPixelsInOrderUntilAFailure := by
  intro s late rest hlate
  refine ⟨decodeReadsBackEveryEncodedCommand _ .pushslow rfl, fun hi => ?_, fun n e hn hi => ?_⟩
  · obtain ⟨last, hlast⟩ := Nat.exists_eq_add_one.2 (cells_pos s.cfg)
    rw [exec_pushslow hlate hi, hlast, List.replicate_succ', List.append_assoc, State.slowAt_oks (by omega)]
    exact congrArg Host.Outcome.next (State.slowAt_ends (.inr (.inr (.inr ⟨last, rfl, hlast.le⟩))))
  · rw [exec_pushslow hlate hi, State.slowAt_oks hn]
    exact congrArg Host.Outcome.next (State.slowAt_ends (.inr (.inr (.inl ⟨n, e, rfl, rfl⟩))))

/-- Settles O38: after n Oks PUSHSLOW is at pixel n (`State.slowAt_oks`) and waits there; while blocked it waits at pixel 0
(`State.issue_waits`). -/
theorem pushslowWaitsAtItsPixel : Obligations.PushslowWaitsAtItsPixel := by
  intro s blocked late n rest hn hlate hblocked hi hrest
  cases blocked with
  | true =>
    obtain rfl : n = 0 := hblocked rfl
    exact congrArg Host.Outcome.next (State.issue_waits (blocked := true) rfl rfl hlate hi hrest)
  | false =>
    rw [exec_pushslow hlate hi, State.slowAt_oks hn, State.resume_of_not_answer hrest]
    rfl

/-! ## The step that takes an answer -/

/-- Settles O52: an answer that ends the command does so in its step (`State.EndsWith.resume`); an Ok to a pixel that is not
the last takes the block to `u`, and it runs on from there. -/
theorem answerEndsTheWaitingCommand : Obligations.AnswerEndsTheWaitingCommand := by
  intro s a rest hab hi
  refine ⟨fun hends => ?_, fun k u hc hk ha hu => ?_⟩
  · have hends : s.EndsWith a := hends
    rw [step_answer (.inl (State.not_idle_of_awaiting hends.awaiting)) hi (.inl hends.awaiting), hends.resume hab]
  · subst ha
    have hw : s.awaiting = true := s.awaiting_iff.2 (.inr (.inr ⟨k, hc⟩))
    have hnext : ({ s with inputs := rest } : State).deliver .ok = u := by
      rw [State.deliver_pixel_ok (s := { s with inputs := rest }) hab hc, hu]
      exact (if_pos hk).trans (State.issuePixel_eq (s := { s with inputs := rest }) hab (k + 1))
    have hstep : step s = .next u.resume := by
      rw [step_answer (.inl (State.not_idle_of_awaiting hw)) hi (.inl hw), hnext]
    have hui : u.inputs = rest := by rw [hu]
    have huw : u.awaiting = true := by rw [hu]; rfl
    refine ⟨fun hrest => ?_, fun a' rest' hrest => ?_⟩
    · rw [hstep, State.resume_of_not_answer (by rwa [hui])]
    · have hui : u.inputs = .answer a' :: rest' := hui.trans hrest
      rw [hstep, State.resume_answer hui huw, step_answer (.inl (State.not_idle_of_awaiting huw)) hui (.inl huw)]

end Sys2Proof.Machine

/-! The HOST's content generators (45_host_generators.md R200 to R208): the cell of each grid as a rule of its row or its
column, and the grids at the ends of each range. -/

namespace Sys2Proof.Machine

variable {p : Params} {percent : Byte} {n x y : Nat}

/-- A level says whether its condition holds: lit is 255, unlit 0 (R200). -/
theorem level_decide (c : Prop) [Decidable c] : level (decide c) = if c then 255 else 0 := by
  by_cases h : c <;> simp [level, h]

/-! ## gradient -/

/-- The byte of a gradient cell is the unbounded product cut off at 255 (R201): nothing wraps. -/
theorem gridCell_gradientGrid_toNat (drop : Nat) (hx : x < p.width) (hy : y < p.height) :
    (gridCell p (gradientGrid p drop) x y).toNat = min 255 (drop * (y + 1)) := by
  rw [gradientGrid, gridCell_gridOf hx hy, BitVec.toNat_ofNat]
  exact Nat.mod_eq_of_lt (by omega)

/-- Settles O58: the cell's value (`gridCell_gradientGrid_toNat`) is monotone in the row. -/
theorem gradientGrowsDownTheGrid : Obligations.GradientGrowsDownTheGrid := by
  refine fun p drop => ⟨fun x y => gridCell_gradientGrid_toNat drop, fun x y1 y2 hx hlt hy2 => ?_⟩
  rw [gridCell_gradientGrid_toNat drop hx (hlt.trans hy2), gridCell_gradientGrid_toNat drop hx hy2]
  exact min_le_min_left 255 (Nat.mul_le_mul_left drop (by omega))

/-! ## percentage -/

theorem percentage_of_le (h : percent.toNat ≤ 100) : percentage p percent =
    .ok (gridOf p fun _ y => level (decide (p.height - percentageRows p percent ≤ y))) := if_pos h

theorem percentage_of_gt (h : 100 < percent.toNat) : percentage p percent = .error .percentageAbove100 :=
  if_neg (Nat.not_le_of_gt h)

theorem percentageRows_zero : percentageRows p 0 = 0 := by simp [percentageRows]

theorem percentageRows_hundred : percentageRows p 100 = p.height := by
  have h : (100 : Byte).toNat = 100 := rfl
  rw [percentageRows, h]
  omega

/-- Settles O59: a cell is lit by its row alone; at 0 no row is lit (`percentageRows_zero`) and at 100 every row
(`percentageRows_hundred`). -/
theorem percentageLightsRowsFromTheBottom : Obligations.PercentageLightsRowsFromTheBottom := by
  refine fun p percent => ⟨fun h => ⟨_, percentage_of_le h, gridOf_length, fun x y hx hy => ?_, ?_, ?_⟩, percentage_of_gt⟩
  · rw [gridCell_gridOf hx hy, level_decide, percentageRows]
  · rintro rfl
    refine gridOf_all fun x y _ hy => ?_
    rw [percentageRows_zero, level_decide, if_neg (by omega)]
  · rintro rfl
    refine gridOf_all fun x y _ _ => ?_
    rw [percentageRows_hundred, level_decide, if_pos (by omega)]

/-! ## every_nth -/

theorem everyNth_of_pos (h : 1 ≤ n) : everyNth p n = .ok (gridOf p fun x _ => level (decide (x % n = 0))) :=
  if_neg (Nat.ne_of_gt h)

/-- Settles O60: 1 divides every column, and an n beyond the last column divides only column 0, as it leaves the others
their own remainder. -/
theorem everyNthLightsItsColumns : Obligations.EveryNthLightsItsColumns := by
  refine fun p n => ⟨fun h => ⟨_, everyNth_of_pos h, gridOf_length, fun x y hx hy => ?_, ?_, fun hn x y hx hy => ?_⟩, rfl⟩
  · rw [gridCell_gridOf hx hy, level_decide]
  · rintro rfl
    refine gridOf_all fun x y _ _ => ?_
    rw [level_decide, if_pos (Nat.mod_one x)]
  · have hmod : x % n = x := Nat.mod_eq_of_lt (by omega)
    rw [gridCell_gridOf hx hy, hmod, show (255 : Byte) = level true from rfl, level_inj, decide_eq_true_iff]

end Sys2Proof.Machine

/-! Abnormal outcomes (60_exceptions.md R220 to R228): what fault entry records and leaves alone, what a FAULTED block still
does, and the one step that answers no next state. -/

namespace Sys2Proof.Machine

variable {s t : State} {i : Instr} {p : Params}

/-! ## Fault entry -/

/-- Settles O48: `causeCode` is the table of R221, clause by clause. -/
theorem causeCodesAreAsListed : Obligations.CauseCodesAreAsListed := ⟨rfl, rfl, rfl, rfl⟩

/-- The frame of a command begins with the command's opcode (30_encoding.md R80). -/
theorem headD_of_decode_ok {f : Frame} (hd : decode p f = .ok i) : f.headD 0x00 = i.opcode.byte := by
  obtain ⟨rfl, -⟩ := decodedFrameIsTheOneEncoding p f i hd
  rfl

/-- The decoder rejects a frame with its first byte, or with 0x00 if it is empty (30_encoding.md R85). -/
theorem headD_of_decode_error {f : Frame} {r : Reject} (hd : decode p f = .error r) : f.headD 0x00 = r.opcode := by
  obtain ⟨rfl, rfl⟩ | ⟨op, l, rfl, -, rfl⟩ | ⟨o, l, rfl, -, rfl⟩ := (decodeRejectsByTheFirstFailingCheck p f r).1 hd
  · rfl
  · rfl
  · rfl

/-- A command that ends in FAULTED has raised a fault, with its own opcode, and done nothing else (R222): one that answers
leaves CTL, and one that waits runs on to no fault (R228). -/
theorem exec_faulted (hc : s.ctl ≠ .faulted) (he : exec i s = .next t) (ht : t.ctl = .faulted) :
    ∃ cause, t = s.raiseFault cause i.opcode.byte := by
  obtain ⟨w, -, rfl⟩ | ⟨b, -, rfl⟩ | ⟨c, -, rfl⟩ | ⟨u, -, rfl⟩ | ⟨-, rfl⟩ | ⟨-, rfl⟩ := exec_case he
  · exact absurd ht hc
  · exact absurd ht hc
  · exact ⟨c, rfl⟩
  · exact absurd ht u.push_not_faulted
  · exact absurd ht (State.resume_not_faulted (by simp))
  · exact absurd ht (State.resume_not_faulted (by simp))

/-- A step that enters FAULTED raises a fault on the oldest held frame, with its first byte as the opcode. -/
theorem step_enters_faulted (hstep : step s = .next t) (hc : s.ctl ≠ .faulted) (ht : t.ctl = .faulted) :
    ∃ f held cause, s.cmd = f :: held ∧ t = ({ s with cmd := held }).raiseFault cause (f.headD 0x00) := by
  obtain ⟨rest, -, rfl⟩ | ⟨f, held, i, -, hf, hd, he⟩ | ⟨f, held, r, -, hf, hd, rfl⟩ | ⟨-, -, rfl⟩ |
    ⟨-, f, rest, -, rfl⟩ | ⟨-, rest, -, rfl⟩ | ⟨-, a, rest, -, ho, rfl⟩ := step_case hstep
  · cases ht
  · obtain ⟨cause, rfl⟩ := exec_faulted (s := { s with cmd := held }) hc he ht
    exact ⟨f, held, cause, hf, by rw [headD_of_decode_ok hd]⟩
  · exact ⟨f, held, r.cause, hf, by rw [headD_of_decode_error hd]⟩
  · exact absurd ht hc
  · exact absurd ht hc
  · exact absurd ht hc
  · obtain ⟨-, hnf⟩ := State.answered_responses ho a rest
    exact absurd ht (hnf hc)

/-- Settles O47: fault entry is `State.raiseFault` on the frame taken (`step_enters_faulted`), which asserts FAULT
(`State.faultLevel_raiseFault`). -/
theorem faultEntryChangesOnlyFsrAndCtl : Obligations.FaultEntryChangesOnlyFsrAndCtl := by
  intro s t hstep hc ht
  obtain ⟨f, held, cause, hf, rfl⟩ := step_enters_faulted hstep hc ht
  exact ⟨f, held, cause, hf, rfl, rfl, State.faultLevel_raiseFault _ _ _⟩

/-! ## The FAULTED block -/

/-- Settles O49, over `StepCase`: a FAULTED block accepts no frame and waits for nothing, so all it can do is hold a frame
offered, let a move pass, or discard an abandoned request's answer (`State.answered_late`). -/
theorem faultedUntilReset : Obligations.FaultedUntilReset := by
  intro s t hc hr hstep
  have hidle : s.ctl ≠ .idle := by simp [hc]
  have hw : s.awaiting = false := s.not_awaiting_iff.2 (.inr hc)
  obtain ⟨rest, hi, -⟩ | ⟨f, held, i, h, -, -, -⟩ | ⟨f, held, r, h, -, -, -⟩ | ⟨-, -, rfl⟩ |
    ⟨-, f, rest, hi, rfl⟩ | ⟨-, rest, -, rfl⟩ | ⟨-, a, rest, -, ho, rfl⟩ := step_case hstep
  · exact absurd hi (hr rest)
  · exact absurd h hidle
  · exact absurd h hidle
  · exact ⟨rfl, .inl rfl⟩
  · exact ⟨rfl, .inr ⟨f, rest, hi, rfl⟩⟩
  · exact ⟨rfl, .inl rfl⟩
  · rw [State.answered_late (ho.resolve_left (by simp [hw])) hw]
    exact ⟨rfl, .inl rfl⟩

/-! ## The model's own stop -/

/-- Accepting a frame always goes on: its command runs (`exec_cases`), or it is rejected by fault entry. -/
theorem State.accept_next (s : State) (f : Frame) : ∃ t, s.accept f = .next t := by
  rw [State.accept]
  split
  · next i _ =>
    obtain ⟨t, he, -⟩ := exec_cases i s
    exact ⟨t, he⟩
  · exact ⟨_, rfl⟩

/-- An answer that nobody owes stops the machine (log 5). -/
theorem step_answer_unowed {a : Answer} {rest : List Input} (hn : s.ctl ≠ .idle ∨ s.cmd = [])
    (hi : s.inputs = .answer a :: rest) (hw : s.awaiting = false) (hab : s.abandoned = false) :
    step s = .fault .answerWithoutRequest := by
  have ho : (({ s with inputs := rest } : State).awaiting || ({ s with inputs := rest } : State).abandoned) = false :=
    Bool.or_eq_false_iff.2 ⟨hw, hab⟩
  rw [step_input hn hi]
  simp [State.takeInput, State.takeAnswer, ho]

/-- A block that accepts no frame takes the next move, and goes on unless that is an answer nobody owes. -/
theorem step_next_or_unowed (hn : s.ctl ≠ .idle ∨ s.cmd = []) : (∃ t, step s = .next t) ∨
    (s.awaiting = false ∧ s.abandoned = false ∧ ∃ a rest, s.inputs = .answer a :: rest) := by
  match hi : s.inputs with
  | [] => exact .inl ⟨_, step_still hn hi⟩
  | .frame f :: rest => exact .inl ⟨_, step_input hn hi⟩
  | .reset :: rest => exact .inl ⟨_, step_reset hi⟩
  | .quiet :: rest => exact .inl ⟨_, step_input hn hi⟩
  | .answer a :: rest =>
    by_cases ho : s.awaiting = true ∨ s.abandoned = true
    · exact .inl ⟨_, step_answer hn hi ho⟩
    · rw [not_or, Bool.not_eq_true, Bool.not_eq_true] at ho
      obtain ⟨hw, hab⟩ := ho
      exact .inr ⟨hw, hab, a, rest, rfl⟩

/-- Settles O57: RESET and an accepted frame always go on (`step_reset`, `State.accept_next`); any other block takes the
next move, and only an answer nobody owes stops it (`step_next_or_unowed`, `step_answer_unowed`). -/
theorem stepStopsOnlyOnAnUnowedAnswer : Obligations.StepStopsOnlyOnAnUnowedAnswer := by
  intro s
  by_cases hn : s.ctl ≠ .idle ∨ s.cmd = []
  · refine (step_next_or_unowed hn).imp_right fun ⟨hw, hab, a, rest, hi⟩ => ?_
    exact ⟨step_answer_unowed hn hi hw hab, hw, hab, hn, a, rest, hi⟩
  · obtain ⟨hc, hne⟩ := not_or.1 hn
    obtain ⟨f, held, hf⟩ := List.exists_cons_of_ne_nil hne
    cases hr : s.resetNext with
    | true =>
      obtain ⟨rest, hi⟩ := State.resetNext_iff.1 hr
      exact .inl ⟨_, step_reset hi⟩
    | false =>
      rw [step_accept hr (not_not.1 hc) hf]
      exact .inl (State.accept_next _ f)

end Sys2Proof.Machine

/-! RESET and the visibility of WORK (70_reset_and_hazards.md R260, R261, R271; 10_state.md R23). RESET gives the reset
state, which is sound. Only SETGRID and RDCELL read WORK: every other operation, run with another WORK, ends with another
WORK at most (`SameButWork`). -/

namespace Sys2Proof.Machine

variable {s : State} {i : Instr}

/-! ## RESET -/

/-- Settles O45: it is the step of a RESET (`step_reset`), with the fields of `State.assertReset` written out. -/
theorem resetRestoresEveryElement : Obligations.ResetRestoresEveryElement :=
  fun _ _ hi => step_reset hi

/-- RESET changes nothing in a block right after reset. -/
theorem State.assertReset_resetOf (cfg : Config) : (State.resetOf cfg).assertReset = State.resetOf cfg := rfl

/-- Settles O41: the reset state is what RESET makes of it (`State.assertReset_resetOf`), and RESET establishes the
invariant from every state (`State.assertReset_inv`). -/
theorem resetStateIsSound : Obligations.ResetStateIsSound :=
  fun cfg => State.assertReset_resetOf cfg ▸ State.assertReset_inv (State.resetOf cfg)

/-! ## Operations that do not look at WORK -/

/-- The second outcome is the first one, but for what WORK holds in the next state. -/
def SameButWork (o o' : Host.Outcome State Fault Refusal) : Prop :=
  match o with
  | .next t => ∃ w', o' = .next { t with work := w' }
  | .fault r => o' = .fault r
  | .refused r => o' = .refused r

/-- An answer does not look at WORK. -/
theorem State.deliver_work (s : State) (w : Memory) (a : Answer) :
    ({ s with work := w } : State).deliver a = { s.deliver a with work := w } := by
  simp only [State.deliver]
  repeat' split
  all_goals rfl

/-- push() composes from COMMIT, and its wait does not look at WORK (`State.resume_work`). -/
theorem State.push_work (s : State) (w : Memory) :
    ({ s with work := w } : State).push = { s.push with work := w } := by
  rw [State.push_eq, State.push_eq, ← State.resume_work]

/-- An answer nobody owes stops the machine with any WORK; one that is owed is delivered (R42, log 5). -/
theorem State.takeAnswer_sameButWork (s : State) (w : Memory) (a : Answer) :
    SameButWork (s.takeAnswer a) (({ s with work := w } : State).takeAnswer a) := by
  have hawaiting : ({ s with work := w } : State).awaiting = s.awaiting := rfl
  simp only [State.takeAnswer, hawaiting, State.deliver_work, State.resume_work]
  split
  · exact ⟨w, rfl⟩
  · rfl

/-- A move of HOST or TRANSPORT does not look at WORK (10_state.md R36, R40, R42). -/
theorem State.takeInput_sameButWork (s : State) (w : Memory) (m : Input) :
    SameButWork (s.takeInput m) (({ s with work := w } : State).takeInput m) := by
  cases m with
  | frame f => exact ⟨w, rfl⟩
  | answer a => exact s.takeAnswer_sameButWork w a
  | reset => exact ⟨[], rfl⟩
  | quiet => exact ⟨w, rfl⟩

/-! ## Commands and steps -/

/-- The writers of WORK make the same writes, or raise the same fault, with any WORK (`exec_writes_or_faults`). -/
theorem exec_framebuffer_sameButWork (s : State) (w : Memory)
    (hi : i = .clear ∨ (∃ x y v, i = .wrcell x y v) ∨ (∃ c, i = .loadgrid c) ∨ (∃ pk, i = .loadpk pk) ∨
      (∃ off g, i = .glyph off g)) :
    SameButWork (exec i s) (exec i { s with work := w }) := by
  obtain ⟨writes, -, hexec⟩ | ⟨cause, opcode, hexec⟩ := exec_writes_or_faults s.cfg hi
  · rw [hexec s rfl, hexec { s with work := w } rfl]
    exact ⟨w.writeAll writes, rfl⟩
  · rw [hexec s rfl, hexec { s with work := w } rfl]
    exact ⟨w, rfl⟩

/-- Only SETGRID copies WORK, and only RDCELL answers from it (R271). The other commands that
send or answer take COMMIT or BRIGHT, or a constant. -/
theorem exec_sameButWork (s : State) (w : Memory) (hset : i ≠ .setgrid) (hread : ∀ x y, i ≠ .rdcell x y) :
    SameButWork (exec i s) (exec i { s with work := w }) := by
  have hwriter := exec_framebuffer_sameButWork (i := i) s w
  cases i with
  | clear => exact hwriter (.inl rfl)
  | wrcell x y v => exact hwriter (.inr (.inl ⟨x, y, v, rfl⟩))
  | loadgrid c => exact hwriter (.inr (.inr (.inl ⟨c, rfl⟩)))
  | loadpk pk => exact hwriter (.inr (.inr (.inr (.inl ⟨pk, rfl⟩))))
  | glyph off g => exact hwriter (.inr (.inr (.inr (.inr ⟨off, g, rfl⟩))))
  | rdcell x y => exact absurd rfl (hread x y)
  | setgrid => exact absurd rfl hset
  | setbrt b => exact ⟨w, congrArg Host.Outcome.next (({ s with bright := b } : State).push_work w)⟩
  | push => exact ⟨w, congrArg Host.Outcome.next (s.push_work w)⟩
  | pushslow => exact ⟨w, congrArg Host.Outcome.next ((s.issuePixel 0).resume_work w)⟩
  | fullon => exact ⟨w, congrArg Host.Outcome.next ((s.issue .waitFill (.fillAll s.cfg.fullOnValue)).resume_work w)⟩
  | rdbrt => exact ⟨w, rfl⟩

/-- Accepting a frame that is rejected, or whose command is neither SETGRID nor RDCELL. -/
theorem State.accept_sameButWork {f : Frame} (w : Memory)
    (hi : ∀ i, decode s.cfg.toParams f = .ok i → i ≠ .setgrid ∧ ∀ x y, i ≠ .rdcell x y) :
    SameButWork (s.accept f) (({ s with work := w } : State).accept f) := by
  simp only [State.accept]
  split
  · next i hd =>
    obtain ⟨hset, hread⟩ := hi i hd
    exact exec_sameButWork s w hset hread
  · exact ⟨w, rfl⟩

/-- A step that runs neither SETGRID nor RDCELL is RESET, accepts a frame, or takes a move, if one is left. -/
theorem step_sameButWork (w : Memory)
    (hi : ∀ f held i, s.ctl = .idle → s.cmd = f :: held → decode s.cfg.toParams f = .ok i →
      i ≠ .setgrid ∧ ∀ x y, i ≠ .rdcell x y) :
    SameButWork (step s) (step { s with work := w }) := by
  by_cases hn : s.ctl ≠ .idle ∨ s.cmd = []
  · by_cases hin : s.inputs = []
    · rw [step_still hn hin, step_still (s := { s with work := w }) hn hin]
      exact ⟨w, rfl⟩
    · obtain ⟨m, rest, hin⟩ := List.exists_cons_of_ne_nil hin
      rw [step_input hn hin, step_input (s := { s with work := w }) hn hin]
      exact State.takeInput_sameButWork { s with inputs := rest } w m
  · obtain ⟨hc, hne⟩ := not_or.1 hn
    have hc : s.ctl = .idle := not_not.1 hc
    obtain ⟨f, held, hf⟩ := List.exists_cons_of_ne_nil hne
    cases hr : s.resetNext with
    | true =>
      obtain ⟨rest, hin⟩ := State.resetNext_iff.1 hr
      rw [step_reset hin, step_reset (s := { s with work := w }) hin]
      exact ⟨[], rfl⟩
    | false =>
      rw [step_accept hr hc hf, step_accept (s := { s with work := w }) hr hc hf]
      exact State.accept_sameButWork (s := { s with cmd := held }) w fun i hd => hi f held i hc hf hd

/-- Settles O40: by `exec_sameButWork` for a command, which always answers a next state (`exec_cases`), and by
`step_sameButWork` for a step, whether it goes on or stops. -/
theorem workIsInvisibleUntilSetgrid : Obligations.WorkIsInvisibleUntilSetgrid := by
  refine ⟨fun i s w hset hread => ?_, fun s w hi => ?_⟩
  · obtain ⟨t, he, -⟩ := exec_cases i s
    have hsame := exec_sameButWork s w hset hread
    rw [he] at hsame
    exact ⟨t, he, hsame⟩
  · have hsame := step_sameButWork w hi
    refine ⟨fun t hstep => ?_, fun r hstep => ?_⟩
    · rw [hstep] at hsame
      exact hsame
    · rw [hstep] at hsame
      exact hsame

end Sys2Proof.Machine
